-- ==== Sys2Proof/Word.lean ====
section
/-! DEFINITION. The word types of the engine: the byte of the message buffer, the 10-bit frame and the 5-bit
selector word. One-bit signals (`tx`, `rst`, `tick`, ...) are `Bool`, with `true` for the level 1. -/

namespace Sys2Proof

/-- One entry of the message buffer: 8 bits, unsigned (R27). -/
abbrev Byte := BitVec 8

/-- The 10-bit start, data and stop encoding of one byte (R40). Bit 0 is driven first. -/
abbrev Frame := BitVec 10

/-- The selector word `sel`: bit 4 `rst`, bit 3 `tick`, bit 2 `st`, bit 1 `last_bit`, bit 0 `last_byte` (R43). -/
abbrev Sel := BitVec 5

end Sys2Proof
end

