-- ==== Sys2Proof/Syntax.lean ====
section
/-! DEFINITION. The operations of the engine, one constructor for each row of spec/opcode_table.json. "Operation"
stands where an ISA has "instruction" (R12). No operation has an operand (R46). -/

namespace Sys2Proof

inductive Instr where
  /-- RESET: the whole engine returns to the reset state (R89). -/
  | reset
  /-- DIV_DEC: the divider counts down (R50). -/
  | divDec
  /-- DIV_RELOAD: the divider ticks and reloads (R51). -/
  | divReload
  /-- SEQ_HOLD: an edge without a tick (R64). -/
  | seqHold
  /-- SHIFT_BIT: drive a start or data bit and advance (R57). -/
  | shiftBit
  /-- SHIFT_STOP: drive the stop bit and report completion (R58). -/
  | shiftStop
  /-- DONE_ADVANCE: move to the next byte (R62). -/
  | doneAdvance
  /-- DONE_HALT: the terminal state stays terminal (R63). -/
  | doneHalt
deriving DecidableEq, Repr

/-- The two operations of one edge: the divider's and the sequencer's (R12). At an edge with `rst = 1` both are
`reset`, the one operation of the whole engine. -/
structure EdgeOps where
  divider : Instr
  sequencer : Instr
deriving DecidableEq, Repr

end Sys2Proof
end

