-- ==== Sys2Proof/WellFormed.lean ====
section
/-! DEFINITION. When an operation, and the pair of operations of one edge, is well formed. -/

namespace Sys2Proof

/-- Every operation is well formed: none has an operand that a check could refuse (R46). -/
def Instr.wf : Instr → Bool
  | .reset | .divDec | .divReload | .seqHold | .shiftBit | .shiftStop | .doneAdvance | .doneHalt => true

/-- The operation is a row of the divider table (R44). -/
def Instr.isDivider : Instr → Bool
  | .reset | .divDec | .divReload => true
  | .seqHold | .shiftBit | .shiftStop | .doneAdvance | .doneHalt => false

/-- The operation is a row of the sequencer table (R45). -/
def Instr.isSequencer : Instr → Bool
  | .reset | .seqHold | .shiftBit | .shiftStop | .doneAdvance | .doneHalt => true
  | .divDec | .divReload => false

/-- A pair that one selector word can select: each operation belongs to its unit, RESET comes for the whole engine
or not at all, and the divider ticks exactly when the sequencer acts on a tick (R44, R45, R39). -/
def EdgeOps.wf (p : EdgeOps) : Bool :=
  p.divider.isDivider && p.sequencer.isSequencer
    && ((p.divider == .reset) == (p.sequencer == .reset))
    && ((p.divider == .divDec) == (p.sequencer == .seqHold))

end Sys2Proof
end

