-- ==== Sys2Proof/Decode.lean ====
section
/-! DEFINITION. Decoding a selector word to the operations of an edge (R43 to R47), then the encoder written from
the same rows. The selector word is laid out as one byte, `sel` in bits 4..0 (log 14). -/

namespace Sys2Proof

/-- The mask of the operation's row (R44, R45). -/
def Instr.mask : Instr → Sel
  | .reset => 0b10000
  | .divDec => 0b11000
  | .divReload => 0b11000
  | .seqHold => 0b11000
  | .shiftBit => 0b11110
  | .shiftStop => 0b11110
  | .doneAdvance => 0b11111
  | .doneHalt => 0b11111

/-- The match value of the operation's row (R44, R45). -/
def Instr.pattern : Instr → Sel
  | .reset => 0b10000
  | .divDec => 0b00000
  | .divReload => 0b01000
  | .seqHold => 0b00000
  | .shiftBit => 0b01000
  | .shiftStop => 0b01010
  | .doneAdvance => 0b01100
  | .doneHalt => 0b01101

/-- The selector word `w` matches the operation's row. -/
def Instr.selects (i : Instr) (w : Sel) : Bool := (w &&& i.mask) == i.pattern

/-- The rows of the divider decode, in the spec's order (R44). -/
def dividerTable : List Instr := [.reset, .divDec, .divReload]

/-- The rows of the sequencer decode, in the spec's order (R45). -/
def sequencerTable : List Instr := [.reset, .seqHold, .shiftBit, .shiftStop, .doneAdvance, .doneHalt]

/-- Why a word decodes to no operations. -/
inductive Reject where
  /-- No byte is left to decode. -/
  | noByte
  /-- A bit above the five selector bits is set: the byte is no selector word (R43; log 14). -/
  | notASelectorWord
  /-- No row of the divider table matches. The rows cover all 32 words, so this never happens (R44). -/
  | noDividerOperation
  /-- The pattern `0111x`: `st = SEND_DONE` with `idx = 9` has no sequencer operation (R45, R47). -/
  | noSequencerOperation
deriving DecidableEq, Repr

/-- The divider's decode of a selector word (R44). -/
def decodeDivider (w : Sel) : Option Instr := dividerTable.find? (·.selects w)

/-- The sequencer's decode of a selector word (R45). -/
def decodeSequencer (w : Sel) : Option Instr := sequencerTable.find? (·.selects w)

/-- The two operations of an edge with selector word `w` (R12, R44, R45). -/
def decodeEdge (w : Sel) : Except Reject EdgeOps :=
  match decodeDivider w, decodeSequencer w with
  | some d, some q => .ok ⟨d, q⟩
  | some _, none => .error .noSequencerOperation
  | none, _ => .error .noDividerOperation

/-- Decode the first byte of a byte sequence as a selector word; total on any bytes. -/
def decode : List Byte → Except Reject (EdgeOps × List Byte)
  | [] => .error .noByte
  | b :: rest =>
    if b.toNat < 32 then (decodeEdge (b.setWidth 5)).map fun p => (p, rest) else .error .notASelectorWord

/-- The number `w` of a table word as the selector byte. -/
def selectorByte (nbits w : Nat) : Option Byte :=
  if w % 2 ^ nbits < 256 then some (BitVec.ofNat 8 (w % 2 ^ nbits)) else none

/-- The instruction the decoder reads from a table word. An edge has two operations; the answer is the sequencer's,
whose table also holds RESET. DIV_DEC and DIV_RELOAD share their words with rows of that table and are the other
half of the same edge (log 6). -/
def decodeTableWord (nbits w : Nat) : Option Instr :=
  match selectorByte nbits w with
  | none => none
  | some b =>
    match decode [b] with
    | .ok (p, _) => some p.sequencer
    | .error _ => none

/-- The selector word of an operation, its don't-care bits 0 (R44, R45). -/
def encode (i : Instr) : Sel := i.pattern

/-- The selector word of a pair of operations, its don't-care bits 0. -/
def encodeEdge (p : EdgeOps) : Sel := p.divider.pattern ||| p.sequencer.pattern

/-- The selector byte of a pair of operations. -/
def encodeBytes (p : EdgeOps) : List Byte := [(encodeEdge p).setWidth 8]

end Sys2Proof
end

