-- ==== Sys2Proof/Config.lean ====
section
/-! DEFINITION. The construction-time parameters of the engine (R4, R87), the codes a construction can be refused
with (R77), and the constants of a circuit that passed every check (R5, R23, R27). How parameters become a circuit
is in Machine/Construct.lean. -/

namespace Sys2Proof

/-- The address space of the engine: the message buffer as cells of index and byte (R27). -/
abbrev Memory := List Host.Cell

/-- The canonical form of the buffer: the cell at position `i` has address `i`, so the addresses rise strictly and
are exactly `0 .. L-1`. An unlisted address has no value (R27, R30; log 16). -/
abbrev Memory.wf (m : Memory) : Prop := m.map Prod.fst = List.range m.length

/-- The cells of a byte sequence whose first byte has address `k`. -/
def Memory.ofBytesFrom (k : Nat) : List Byte → Memory
  | [] => []
  | b :: bs => (k, b) :: Memory.ofBytesFrom (k + 1) bs

/-- The buffer that holds the given bytes at addresses 0, 1, 2, ... (R4 `BUF`, R34). -/
def Memory.ofBytes (bs : List Byte) : Memory := Memory.ofBytesFrom 0 bs

theorem Memory.length_ofBytesFrom (bs : List Byte) : ∀ k, (Memory.ofBytesFrom k bs).length = bs.length := by
  induction bs with
  | nil => intro k; rfl
  | cons b bs ih => intro k; simp [Memory.ofBytesFrom, ih]

theorem Memory.addresses_ofBytesFrom (bs : List Byte) :
    ∀ k, (Memory.ofBytesFrom k bs).map Prod.fst = List.range' k bs.length := by
  induction bs with
  | nil => intro k; rfl
  | cons b bs ih => intro k; simp [Memory.ofBytesFrom, ih, List.range'_succ]

/-- A buffer made from bytes is in canonical form. -/
theorem Memory.ofBytes_wf (bs : List Byte) : (Memory.ofBytes bs).wf := by
  simp [Memory.wf, Memory.ofBytes, Memory.addresses_ofBytesFrom, Memory.length_ofBytesFrom,
    List.range_eq_range']

/-- What a HeartbeatBlink indicator monitors. The source does not say (R87, D20: HB_MON_TX and HB_MON_RX are open
parameters); the model offers the level of the indicator's line, or any signal of the environment (log 10). -/
inductive Monitor where
  /-- The monitored signal is 1 while the indicator's line is at `level`. -/
  | lineAt (level : Bool)
  /-- The monitored signal is an input of the environment, given for each cycle. -/
  | external
deriving DecidableEq, Repr

/-- The parameters of the two companion blocks (R85, R87). `HB_CEIL` and `W_HB` are shared by both indicators, as
the spec names one of each (log 10). `width_pos` gives the counter a most-significant bit to show (R88). -/
structure Companions where
  /-- SYNC_RESET. -/
  syncReset : Bool
  /-- HB_CEIL. -/
  hbCeil : Nat
  /-- W_HB. -/
  hbWidth : Nat
  /-- HB_MON_TX. -/
  monTx : Monitor
  /-- HB_MON_RX. -/
  monRx : Monitor
  width_pos : 1 ≤ hbWidth
  ceil_le : hbCeil ≤ 2 ^ hbWidth - 1
deriving DecidableEq, Repr

/-- The constants of a constructed circuit, with the proofs that they passed their checks, so that no step ever
meets an invalid configuration (R5, R77). No operation changes them (R23). -/
structure Circuit where
  /-- N, the reload value of the divider (R5, R53). -/
  divisor : Nat
  /-- BUF (R4, R27). -/
  buf : Memory
  companions : Companions
  divisor_pos : 1 ≤ divisor
  buf_wf : buf.wf
  buf_nonempty : 1 ≤ buf.length
deriving DecidableEq, Repr

/-- L, the number of bytes of the message (R5). -/
def Circuit.length (c : Circuit) : Nat := c.buf.length

/-- The driving clock, given as a period in nanoseconds or as a frequency in Hz (R4: P_NS, F_DRV). -/
inductive DrivingClock where
  | periodNs (p : Rat)
  | frequencyHz (f : Rat)
deriving DecidableEq, Repr

/-- The three ways a configuration gives the divisor (R48): the two rates, or N itself. -/
inductive DivisorSource where
  | rates (clock : DrivingClock) (baud : Rat)
  | direct (n : Int)
deriving DecidableEq, Repr

/-- The parameters as a caller gives them, before any check (R4). -/
structure Params where
  divisor : DivisorSource
  buf : List Int
  companions : Companions
deriving DecidableEq, Repr

/-- The codes of the configuration checks (R77). They name refusals of a construction, never of a step. -/
inductive ConfigCode where
  /-- The driving clock is not a positive number. -/
  | ce1
  /-- The target frequency is not positive. -/
  | ce2
  /-- The target frequency exceeds the driving frequency. -/
  | ce3
  /-- The message buffer is empty. -/
  | ce4
  /-- Some element of the message buffer is not a byte. -/
  | ce5
  /-- A divisor given directly is below 1. -/
  | ce6
deriving DecidableEq, Repr

/-- Companion parameters for the reset configuration: the spec's default SYNC_RESET, and for the open HeartbeatBlink
parameters the values of the spec's own vectors (95_test_vectors.md section 2.7). DESIGN CHOICE, log 10. -/
def Companions.example : Companions where
  syncReset := true
  hbCeil := 15
  hbWidth := 4
  monTx := .external
  monRx := .external
  width_pos := by decide
  ceil_le := by decide

/-- The circuit of the source's example message: N = 104 and the 7 bytes "henlo\r\n" (SV3; R4's example column).
DESIGN CHOICE: which configuration the reset state is built with, log 3. -/
def Circuit.example : Circuit where
  divisor := 104
  buf := Memory.ofBytes [0x68, 0x65, 0x6E, 0x6C, 0x6F, 0x0D, 0x0A]
  companions := Companions.example
  divisor_pos := by decide
  buf_wf := Memory.ofBytes_wf _
  buf_nonempty := by decide

end Sys2Proof
end

