-- ==== Sys2Proof/Machine/State.lean ====
section
/-! DEFINITION. The state of the engine and its companion blocks as plain data, the reasons a step can stop, and the
state after reset. -/

namespace Sys2Proof.Machine

/-- ProtocolState (R17). Its encoding is `SEND_WAIT = 0`, `SEND_DONE = 1` (R42). -/
inductive ProtocolState where
  /-- Shifting bits of the current frame; the initial state. -/
  | sendWait
  /-- The frame is complete: one tick period before the next byte, or the terminal state. -/
  | sendDone
deriving DecidableEq, Repr

/-- The levels the environment drives during one cycle. -/
structure Inputs where
  /-- The reset input `rst`, synchronous and active high (R6). -/
  rst : Bool
  /-- The asynchronous input line of the Synchronizer (R85). -/
  rxAsync : Bool
  /-- The external monitored signal of the transmit-side indicator (R87). -/
  monTx : Bool
  /-- The external monitored signal of the receive-side indicator (R87). -/
  monRx : Bool
deriving DecidableEq, Repr

/-- The levels in a cycle the stimulus says nothing of: `rst = 0` (R48); for the companion inputs the idle line and
no activity (DESIGN CHOICE, log 5). -/
def Inputs.idle : Inputs := { rst := false, rxAsync := true, monTx := false, monRx := false }

/-- The whole state of the machine. Counters and indexes are naturals, their widths and ranges are predicates: the
engine's in `State.Inv` (Machine/Ops.lean; widths in Machine/Construct.lean; log 9), the HeartbeatBlink counters' in
`State.CompanionsInRange` (Safety.lean; log 18). -/
structure State where
  /-- The constants of the circuit, N, BUF and the companion parameters; no step changes them (R23; log 2). -/
  circuit : Circuit
  /-- The divider's countdown counter (R14). -/
  cnt : Nat
  /-- ShiftIndex, the frame bit to be driven next (R16). -/
  idx : Nat
  /-- ProtocolState (R17). -/
  st : ProtocolState
  /-- SequencerIndex, the byte being sent (R18). -/
  seq : Nat
  /-- The output line register, which is the `tx` port (R19). -/
  tx : Bool
  /-- Synchronizer, first stage (R85). -/
  s1 : Bool
  /-- Synchronizer, second stage, the output `rx_sync` (R85). -/
  s2 : Bool
  /-- HeartbeatBlink counter of the transmit-side indicator (R87). A value that does not fit W_HB bits is not refused:
  DESIGN CHOICE, log 18. -/
  hbTx : Nat
  /-- HeartbeatBlink counter of the receive-side indicator (R87). A value that does not fit W_HB bits is not refused:
  DESIGN CHOICE, log 18. -/
  hbRx : Nat
  /-- The inputs of this cycle (the head) and of the coming ones; past its end, `Inputs.idle` (R48; log 5). -/
  inputs : List Inputs
deriving DecidableEq, Repr

/-- The engine raises no fault: "the engine raises no exception, fault or trap in any state and at any edge" (R76).
So there is no constructor (log 1). -/
inductive Fault
deriving DecidableEq, Repr

/-- Why an edge or an operation has no meaning. -/
inductive Refusal where
  /-- Raised by `exec` for an operation that has no meaning yet. Safe. -/
  | notModelled (mnemonic : String)
  /-- Raised by every operation but RESET, and so by a step with `rst = 0`, in a state that breaks `Inv`: such a
  state is unreachable and nothing says what the hardware does in it (R47, D9; log 8). Safe. -/
  | unreachableState
  /-- Raised by an operation performed in a state whose selector word does not select it: the hardware performs
  it at no such edge (R12). A step never raises it (log 7). Safe. -/
  | notSelected
deriving DecidableEq, Repr

/-- The state at power-on of a circuit, which is its reset state `S_rst`, with the given inputs to come (R90, R91).
The companion registers hold their reset values (R85, R87; at power-on a DESIGN CHOICE, log 11). -/
def State.start (c : Circuit) (ins : List Inputs) : State where
  circuit := c
  cnt := c.divisor
  idx := 0
  st := .sendWait
  seq := 0
  tx := true
  s1 := c.companions.syncReset
  s2 := c.companions.syncReset
  hbTx := 0
  hbRx := 0
  inputs := ins

/-- The machine right after reset, built with the source's example configuration (R90; log 3), with no further
reset to come (R48). -/
def State.reset : State := State.start Circuit.example []

end Sys2Proof.Machine
end

