-- ==== Sys2Proof/Machine/Operands.lean ====
section
/-! DEFINITION. What an operation reads: a byte of the message buffer, the frame assembled from it, and the bit of
the frame to drive (R28, R40, R46). -/

namespace Sys2Proof

/-- `MemRead(i, 1)`: the byte at index `i`, or no value where the buffer has no such index (R9, R28, R30; log 16). -/
def Memory.read (m : Memory) (i : Nat) : Option Byte := (m.find? fun cell => cell.1 == i).map Prod.snd

namespace Machine

/-- `MemRead(i, 1)` of the state's circuit. -/
def State.memRead (s : State) (i : Nat) : Option Byte := Memory.read s.circuit.buf i

/-- L, the number of bytes of the message (R5). -/
def State.len (s : State) : Nat := s.circuit.length

/-- `frame(b) = {1, b[7:0], 0}` (R40). -/
def frame (b : Byte) : Frame := 1#1 ++ b ++ 0#1

/-- `frame(MemRead(seq, 1))[i]`: bit `i` of the frame of the byte being sent (R20, R41). -/
def State.frameBit (s : State) (i : Nat) : Option Bool := (s.memRead s.seq).map fun b => (frame b).getLsbD i

end Machine

end Sys2Proof
end

