-- ==== Sys2Proof/Machine/Flags.lean ====
section
/-! DEFINITION. The combinational signals of the engine: the inputs of the current cycle, `tick`, and the selector
word (R15, R43). They are functions of the pre-edge state, and no register holds them. -/

namespace Sys2Proof.Machine

/-- The inputs during cycle `t`, counted from the current cycle. -/
def State.inputAt (s : State) (t : Nat) : Inputs := s.inputs.getD t Inputs.idle

/-- The inputs during the current cycle. -/
def State.input (s : State) : Inputs := s.inputAt 0

/-- The `rst` input during the current cycle (R6). -/
def State.rst (s : State) : Bool := s.input.rst

/-- `tick = (cnt == 0)` (R15). -/
def State.tick (s : State) : Bool := s.cnt == 0

/-- `st` as a bit: `SEND_WAIT = 0`, `SEND_DONE = 1` (R42). -/
def State.stBit (s : State) : Bool := s.st == .sendDone

/-- `last_bit`: `idx == 9` (R43). -/
def State.lastBit (s : State) : Bool := s.idx == 9

/-- `last_byte`: `seq == L-1` (R43). -/
def State.lastByte (s : State) : Bool := s.seq == s.len - 1

/-- `sel = {rst, tick, st, last_bit, last_byte}` (R43). -/
def State.sel (s : State) : Sel :=
  BitVec.ofBool s.rst ++ BitVec.ofBool s.tick ++ BitVec.ofBool s.stBit ++ BitVec.ofBool s.lastBit
    ++ BitVec.ofBool s.lastByte

end Sys2Proof.Machine
end

