-- ==== Sys2Proof/Machine/Ops.lean ====
section
/-! DEFINITION. The shared operations: writing a register, performing an operation that its selector word selects,
committing the two operations of an edge together, and placing a selector word. The spec gives the machine no
exception entry and no return from one (R79), so none is here; the one event that redirects it is RESET (R89). -/

namespace Sys2Proof

/-- The monitored signal `mon` of an indicator: the level of its line, or the environment's signal (R87; log 10). -/
def Monitor.value (m : Monitor) (line ext : Bool) : Bool :=
  match m with
  | .lineAt level => line == level
  | .external => ext

/-- The circuit with a message of at least two bytes: a one-byte message gets a second byte 0, because with L = 1
the signal `last_byte` cannot be 0. -/
def Circuit.withTwoBytes (c : Circuit) : Circuit :=
  if 2 ≤ c.buf.length then c
  else { c with
    buf := c.buf ++ [(c.buf.length, 0)]
    buf_wf := by
      have h := c.buf_wf
      simp only [Memory.wf] at h ⊢
      simp [h, List.range_succ]
    buf_nonempty := by simp }

namespace Machine

/-! ### Register writes -/

/-- `cnt <- v`. -/
def State.setCnt (s : State) (v : Nat) : State := { s with cnt := v }
/-- `idx <- v`. -/
def State.setIdx (s : State) (v : Nat) : State := { s with idx := v }
/-- `st <- v`. -/
def State.setSt (s : State) (v : ProtocolState) : State := { s with st := v }
/-- `seq <- v`. -/
def State.setSeq (s : State) (v : Nat) : State := { s with seq := v }
/-- `tx <- v`. -/
def State.setTx (s : State) (v : Bool) : State := { s with tx := v }

/-! ### Selection -/

/-- `Inv(S)`: what every state reachable from the reset state satisfies (R24). It is about the engine registers alone,
as in R24: it names no companion register, so a HeartbeatBlink counter outside its width does not break it and
stops no step (DESIGN CHOICE, log 18). -/
abbrev State.Inv (s : State) : Prop :=
  s.cnt ≤ s.circuit.divisor ∧ s.idx ≤ 9 ∧ s.seq ≤ s.len - 1 ∧ (s.st = .sendDone → s.idx = 0)

/-- Perform operation `i`, whose register writes turn `s` into `after`: only in a state that satisfies `Inv` (R47)
and whose selector word selects `i` (R44, R45). -/
def State.perform (s : State) (i : Instr) (after : State) : Host.Outcome State Fault Refusal :=
  if s.Inv then
    if i.selects s.sel then .next after else .refused .notSelected
  else .refused .unreachableState

/-- Perform RESET, which is accepted in every state, also in one that breaks `Inv` (R89; log 8). -/
def State.performReset (s after : State) : Host.Outcome State Fault Refusal :=
  if Instr.reset.selects s.sel then .next after else .refused .notSelected

/-! ### Companion blocks: the values after an edge, from the pre-edge state (R85, R87) -/

/-- `s1` after the edge (R85). -/
def State.nextS1 (s : State) : Bool := if s.rst then s.circuit.companions.syncReset else s.input.rxAsync

/-- `s2` after the edge: the pre-edge `s1` (R85). -/
def State.nextS2 (s : State) : Bool := if s.rst then s.circuit.companions.syncReset else s.s1

/-- The transmit-side indicator may observe the core's `tx` line, and no other core state (R87). -/
def State.monTx (s : State) : Bool := s.circuit.companions.monTx.value s.tx s.input.monTx

/-- The receive-side indicator observes the Synchronizer's output (R85, R87). -/
def State.monRx (s : State) : Bool := s.circuit.companions.monRx.value s.s2 s.input.monRx

/-- A HeartbeatBlink counter after an edge: reload wins over the decrement, reset over both (R87, D20). On
a value above HB_CEIL or outside W_HB bits, which no run reaches, it counts as on any other (DESIGN CHOICE, log 18). -/
def nextHb (rst mon : Bool) (ceil hb : Nat) : Nat :=
  if rst then 0 else if mon then ceil else if hb ≠ 0 then hb - 1 else 0

/-- `hbTx` after the edge. -/
def State.nextHbTx (s : State) : Nat := nextHb s.rst s.monTx s.circuit.companions.hbCeil s.hbTx

/-- `hbRx` after the edge. -/
def State.nextHbRx (s : State) : Nat := nextHb s.rst s.monRx s.circuit.companions.hbCeil s.hbRx

/-- The indicator output: the most-significant bit of the counter, bit W_HB - 1 (R88). On a value that does not fit
W_HB bits, which no run reaches, it is still that bit alone (DESIGN CHOICE, log 18). -/
def led (c : Companions) (hb : Nat) : Bool := hb.testBit (c.hbWidth - 1)

/-- The transmit-side indicator. -/
def State.ledTx (s : State) : Bool := led s.circuit.companions s.hbTx

/-- The receive-side indicator. -/
def State.ledRx (s : State) : Bool := led s.circuit.companions s.hbRx

/-- `rx_sync`, the Synchronizer's output (R85). -/
def State.rxSync (s : State) : Bool := s.s2

/-! ### The edge -/

/-- The state after the edge: `cnt` as the divider operation left it in `d`, the other engine registers as the
sequencer operation left them in `q` (R26: one writer for each register; R69: all writes land together), the
companion registers, and the next cycle's inputs. The circuit never changes (R23). -/
def State.commit (s d q : State) : State where
  circuit := s.circuit
  cnt := d.cnt
  idx := q.idx
  st := q.st
  seq := q.seq
  tx := q.tx
  s1 := s.nextS1
  s2 := s.nextS2
  hbTx := s.nextHbTx
  hbRx := s.nextHbRx
  inputs := s.inputs.tail

/-- Commit the two operations of an edge, both computed from the pre-edge state `s` (R35, R69). A stop of either
stops the edge. -/
def State.commitEdge (s : State) (d q : Host.Outcome State Fault Refusal) : Host.Outcome State Fault Refusal :=
  match d, q with
  | .next d, .next q => .next (s.commit d q)
  | .next _, stop => stop
  | stop, _ => stop

/-! ### Placing a selector word (log 13) -/

/-- The stimulus with `rst` in the current cycle as given. -/
def withRst (rst : Bool) : List Inputs → List Inputs
  | [] => if rst then [{ Inputs.idle with rst := true }] else []
  | i :: rest => { i with rst := rst } :: rest

/-- The state with every register and input that the selector word reads set so that `sel` is `w`; a register that
already gives its bit is left alone. -/
def State.withSel (s : State) (w : Sel) : State :=
  let c := if w.getLsbD 0 then s.circuit else Circuit.withTwoBytes s.circuit
  { s with
    circuit := c
    inputs := withRst (w.getLsbD 4) s.inputs
    cnt := if w.getLsbD 3 then 0 else if s.cnt = 0 then c.divisor else s.cnt
    st := if w.getLsbD 2 then .sendDone else .sendWait
    idx := if w.getLsbD 1 then 9 else if w.getLsbD 2 ∨ s.idx = 9 then 0 else s.idx
    seq := if w.getLsbD 0 then c.length - 1 else if s.seq = c.length - 1 then 0 else s.seq }

end Machine

end Sys2Proof
end

