-- ==== Sys2Proof/Machine/ClockDivider.lean ====
section
/-! DEFINITION. The operations of the ClockDivider. -/

namespace Sys2Proof.Machine

/-- DIV_DEC (R50). -/
def execDivDec (s : State) : Host.Outcome State Fault Refusal :=
  s.perform .divDec (s.setCnt (s.cnt - 1))

/-- DIV_RELOAD: the reload value is N, not N-1 (R51; conflict C1). -/
def execDivReload (s : State) : Host.Outcome State Fault Refusal :=
  s.perform .divReload (s.setCnt s.circuit.divisor)

end Sys2Proof.Machine
end

