-- ==== Sys2Proof/Machine/EngineReset.lean ====
section
/-! DEFINITION. The operation of the whole engine. -/

namespace Sys2Proof.Machine

/-- RESET (R89). -/
def execReset (s : State) : Host.Outcome State Fault Refusal :=
  s.performReset (((((s.setCnt s.circuit.divisor).setIdx 0).setSt .sendWait).setSeq 0).setTx true)

end Sys2Proof.Machine
end

