-- ==== Sys2Proof/Machine/FrameShifter.lean ====
section
/-! DEFINITION. The operations of the FrameShifter. An index outside the buffer breaks `Inv` and is refused
(R30, R47). -/

namespace Sys2Proof.Machine

/-- SHIFT_BIT (R57). -/
def execShiftBit (s : State) : Host.Outcome State Fault Refusal :=
  match s.frameBit s.idx with
  | some v => s.perform .shiftBit ((s.setTx v).setIdx (s.idx + 1))
  | none => .refused .unreachableState

/-- SHIFT_STOP (R58). -/
def execShiftStop (s : State) : Host.Outcome State Fault Refusal :=
  match s.frameBit 9 with
  | some v => s.perform .shiftStop (((s.setTx v).setIdx 0).setSt .sendDone)
  | none => .refused .unreachableState

end Sys2Proof.Machine
end

