-- ==== Sys2Proof/Machine/TransmitSequencer.lean ====
section
/-! DEFINITION. The operations of the TransmitSequencer. -/

namespace Sys2Proof.Machine

/-- SEQ_HOLD (R64). -/
def execSeqHold (s : State) : Host.Outcome State Fault Refusal :=
  s.perform .seqHold s

/-- DONE_ADVANCE (R62). -/
def execDoneAdvance (s : State) : Host.Outcome State Fault Refusal :=
  s.perform .doneAdvance ((s.setSeq (s.seq + 1)).setSt .sendWait)

/-- DONE_HALT (R63). -/
def execDoneHalt (s : State) : Host.Outcome State Fault Refusal :=
  s.perform .doneHalt s

end Sys2Proof.Machine
end

