-- ==== Sys2Proof/Machine/Dispatch.lean ====
section
/-! DEFINITION. The meaning of each operation, one arm per constructor. -/

namespace Sys2Proof.Machine

def exec (i : Instr) (s : State) : Host.Outcome State Fault Refusal :=
  match i with
  | .reset => Sys2Proof.Machine.execReset s
  | .divDec => Sys2Proof.Machine.execDivDec s
  | .divReload => Sys2Proof.Machine.execDivReload s
  | .seqHold => Sys2Proof.Machine.execSeqHold s
  | .shiftBit => Sys2Proof.Machine.execShiftBit s
  | .shiftStop => Sys2Proof.Machine.execShiftStop s
  | .doneAdvance => Sys2Proof.Machine.execDoneAdvance s
  | .doneHalt => Sys2Proof.Machine.execDoneHalt s

end Sys2Proof.Machine
end

