-- ==== Sys2Proof/Machine/Step.lean ====
section
/-! DEFINITION. One step of the machine: one active edge of `clk`. -/

namespace Sys2Proof.Machine

/-- `S(t+1) = Step(S(t), rst(t))`: decode the selector word of the pre-edge state, compute both operations from that
state, and commit them together with the companion blocks' edge (R69, R8). A word with no sequencer operation comes
only from a state that breaks `Inv` (R47). -/
def step (s : State) : Host.Outcome State Fault Refusal :=
  match decodeEdge s.sel with
  | .ok ops => s.commitEdge (exec ops.divider s) (exec ops.sequencer s)
  | .error _ => .refused .unreachableState

/-- The state whose next edge has the selector word of table word `w` (log 13). -/
def State.withFetchWord (s : State) (nbits w : Nat) : State :=
  s.withSel (BitVec.ofNat 5 (w % 2 ^ nbits))

end Sys2Proof.Machine
end

