-- ==== Sys2Proof/Machine/Construct.lean ====
section
/-! DEFINITION. Construction: the checks of the parameters, the divisor, the derived widths and the derived rates.
All arithmetic on rates is exact rational arithmetic (R10). It happens once, before any circuit exists (R77). -/

namespace Sys2Proof

/-- `F_DRV`: as given, or `10^9 / P_NS` exactly (R54). A period of 0 leaves it undefined (R78). -/
def DrivingClock.frequency : DrivingClock → Option Rat
  | .periodNs p => if p = 0 then none else some (10 ^ 9 / p)
  | .frequencyHz f => some f

/-- CE1: the driving clock is not a positive number (R77). -/
def failsCe1 : DivisorSource → Bool
  | .rates (.periodNs p) _ => p ≤ 0
  | .rates (.frequencyHz f) _ => f ≤ 0
  | .direct _ => false

/-- CE2: the target frequency is not positive (R77). -/
def failsCe2 : DivisorSource → Bool
  | .rates _ baud => baud ≤ 0
  | .direct _ => false

/-- CE3: the target frequency exceeds the driving frequency; not evaluated where that is undefined (R77, R78). -/
def failsCe3 : DivisorSource → Bool
  | .rates clock baud =>
    match DrivingClock.frequency clock with
    | some f => f < baud
    | none => false
  | .direct _ => false

/-- CE4: the message buffer is empty (R77). -/
def failsCe4 (buf : List Int) : Bool := buf.isEmpty

/-- CE5: some element is not an integer in 0 .. 255 (R77). -/
def failsCe5 (buf : List Int) : Bool := buf.any fun b => b < 0 || 255 < b

/-- CE6: a divisor given directly is below 1 (R77). -/
def failsCe6 : DivisorSource → Bool
  | .rates _ _ => false
  | .direct n => n < 1

/-- The codes of all failing checks, in the order CE1 to CE6 (R78). -/
def failingCodes (p : Params) : List ConfigCode :=
  (if failsCe1 p.divisor then [.ce1] else []) ++ (if failsCe2 p.divisor then [.ce2] else [])
    ++ (if failsCe3 p.divisor then [.ce3] else []) ++ (if failsCe4 p.buf then [.ce4] else [])
    ++ (if failsCe5 p.buf then [.ce5] else []) ++ (if failsCe6 p.divisor then [.ce6] else [])

/-- `round(F_DRV / F_BAUD) = floor(F_DRV / F_BAUD + 1/2)`: to the nearest integer, a tie up (R53, D5). -/
def roundedDivisor (drv baud : Rat) : Int := (drv / baud + 1 / 2).floor

/-- N of the parameters, meaningful where no check fails (R5, R53). -/
def divisorOf : DivisorSource → Nat
  | .rates clock baud =>
    match DrivingClock.frequency clock with
    | some f => (roundedDivisor f baud).toNat
    | none => 0
  | .direct n => n.toNat

/-- The bytes of the buffer parameter, meaningful where CE5 does not fail. -/
def bytesOf (buf : List Int) : List Byte := buf.map fun b => BitVec.ofNat 8 b.toNat

theorem roundedDivisor_pos {drv baud : Rat} (hb : 0 < baud) (h : baud ≤ drv) : 1 ≤ roundedDivisor drv baud := by
  have h1 : (1 : Rat) ≤ drv / baud := (one_le_div hb).mpr h
  refine Rat.le_floor_iff.mpr ?_
  push_cast
  linarith

theorem divisorOf_pos {p : Params} (h : failingCodes p = []) : 1 ≤ divisorOf p.divisor := by
  cases hd : p.divisor with
  | direct n =>
    simp only [failingCodes, hd, failsCe6, List.append_eq_nil_iff, decide_eq_true_eq] at h
    have h6 := h.2
    simp only [divisorOf]
    split at h6 <;> simp_all
    omega
  | rates clock baud =>
    simp only [failingCodes, hd, List.append_eq_nil_iff] at h
    obtain ⟨⟨⟨⟨⟨h1, h2⟩, h3⟩, -⟩, -⟩, -⟩ := h
    have hb : 0 < baud := by
      simpa [failsCe2] using h2
    simp only [divisorOf]
    cases hf : DrivingClock.frequency clock with
    | none =>
      exfalso
      cases clock with
      | periodNs p =>
        simp only [DrivingClock.frequency] at hf
        split at hf
        · subst_vars; simp [failsCe1] at h1
        · cases hf
      | frequencyHz f => simp [DrivingClock.frequency] at hf
    | some f =>
      have hle : baud ≤ f := by simpa [failsCe3, hf] using h3
      have := roundedDivisor_pos hb hle
      simp only
      omega

theorem bytesOf_length {p : Params} (h : failingCodes p = []) :
    1 ≤ (Memory.ofBytes (bytesOf p.buf)).length := by
  simp only [failingCodes, List.append_eq_nil_iff] at h
  have h4 := h.1.1.2
  cases hb : p.buf with
  | nil => simp [hb, failsCe4] at h4
  | cons b bs => simp [Memory.ofBytes, Memory.length_ofBytesFrom, bytesOf]

/-- Construction: the circuit of the parameters, or the refusal `ConfigError` with every failing code (R77, R78). -/
def construct (p : Params) : Except (List ConfigCode) Circuit :=
  if h : failingCodes p = [] then
    .ok {
      divisor := divisorOf p.divisor
      buf := Memory.ofBytes (bytesOf p.buf)
      companions := p.companions
      divisor_pos := divisorOf_pos h
      buf_wf := Memory.ofBytes_wf _
      buf_nonempty := bytesOf_length h }
  else .error (failingCodes p)

/-- Boot: the parameters pass every check, the circuit is built, and the engine is in its power-on state with the
given inputs to come; it then starts by itself (R91, R94). -/
def powerOn (p : Params) (ins : List Machine.Inputs) : Except (List ConfigCode) Machine.State :=
  (construct p).map fun c => Machine.State.start c ins

/-! ### Derived constants -/

/-- `ceil(log2(n))` for `n >= 1`. -/
def ceilLog2 (n : Nat) : Nat := if n ≤ 1 then 0 else Nat.log2 (n - 1) + 1

/-- `W_CNT = ceil(log2(N + 1))` (R5). -/
def Circuit.cntWidth (c : Circuit) : Nat := ceilLog2 (c.divisor + 1)

/-- `W_IDX = 4` (R5, D8). -/
def idxWidth : Nat := 4

/-- `W_SEQ = max(1, ceil(log2(L)))` (R5, D8). -/
def Circuit.seqWidth (c : Circuit) : Nat := max 1 (ceilLog2 c.length)

/-- One bit period in cycles, `N + 1` (R52, R74; conflict C1). -/
def Circuit.bitPeriod (c : Circuit) : Nat := c.divisor + 1

/-- The cycle, counted from the reset state, in which the terminal state is reached (R72, R73). -/
def Circuit.terminalCycle (c : Circuit) : Nat := (11 * c.length - 1) * c.bitPeriod

/-- The actual bit rate: one bit per bit period of the driving clock, `F_DRV / (N + 1)` (R74). -/
def actualBitRate (drv : Rat) (c : Circuit) : Rat := drv / c.bitPeriod

/-- The actual byte rate: one byte, idle period included, per eleven bit periods, `F_DRV / (11 * (N + 1))` (R74). -/
def actualByteRate (drv : Rat) (c : Circuit) : Rat := drv / (11 * c.bitPeriod)

/-- The ratio of the actual bit rate to the target (R75). -/
def bitRateRatio (drv baud : Rat) (c : Circuit) : Rat := actualBitRate drv c / baud

end Sys2Proof
end

