-- ==== Sys2Proof/Safety.lean ====
section
/-! DEFINITION. The words claims about runs are made in: a run, a run without reset, the terminal state, what the line
register shows, and when two states agree on the engine. -/

namespace Sys2Proof.Machine

/-- The state after `n` edges, stopping at the first refusal. It is the host's `Host.Core.run` (Laws/Step.lean). -/
def run : Nat → State → Host.Outcome State Fault Refusal
  | 0, s => .next s
  | n + 1, s =>
    match step s with
    | .next t => run n t
    | stop => stop

/-- No reset is asserted in the next `n` cycles. -/
abbrev State.NoReset (s : State) (n : Nat) : Prop := ∀ k, k < n → (s.inputAt k).rst = false

/-- Reset is asserted in each of the next `n` cycles. -/
abbrev State.ResetHeld (s : State) (n : Nat) : Prop := ∀ k, k < n → (s.inputAt k).rst = true

/-- The terminal state: `st = SEND_DONE` with `seq = L-1` (R67). -/
abbrev State.Terminal (s : State) : Prop := s.st = .sendDone ∧ s.seq = s.len - 1

/-- What the line register shows in every reachable state: the idle or stop level outside a frame, and inside one the
frame bit before `idx`, which is the bit driven last (R19, R57, R58). -/
abbrev State.LineInv (s : State) : Prop :=
  s.Inv ∧ (s.st = .sendDone ∨ s.idx = 0 → s.tx = true)
    ∧ (s.st = .sendWait ∧ 1 ≤ s.idx → s.frameBit (s.idx - 1) = some s.tx)

/-- The HeartbeatBlink counters are within `0 .. HB_CEIL`, and so fit W_HB bits (R87, D20). It is no part of `State.Inv`,
and no step refuses a state outside it (log 18). -/
abbrev State.CompanionsInRange (s : State) : Prop :=
  s.hbTx ≤ s.circuit.companions.hbCeil ∧ s.hbRx ≤ s.circuit.companions.hbCeil

/-- What counts as a safe state: the engine's and the companions' invariants hold. -/
abbrev State.Safe (s : State) : Prop := s.LineInv ∧ s.CompanionsInRange

/-- The engine registers hold their reset values `S_rst` (R90). -/
abbrev State.InReset (s : State) : Prop :=
  s.cnt = s.circuit.divisor ∧ s.idx = 0 ∧ s.st = .sendWait ∧ s.seq = 0 ∧ s.tx = true

/-- Two states agree on the engine: N, BUF and the five registers of R13. The companion blocks, their parameters and
the inputs may differ. -/
abbrev State.SameEngine (a b : State) : Prop :=
  a.circuit.divisor = b.circuit.divisor ∧ a.circuit.buf = b.circuit.buf ∧ a.cnt = b.cnt ∧ a.idx = b.idx
    ∧ a.st = b.st ∧ a.seq = b.seq ∧ a.tx = b.tx

/-- Two states will see the same reset input in the next `n` cycles. -/
abbrev State.SameResets (a b : State) (n : Nat) : Prop := ∀ k, k < n → (a.inputAt k).rst = (b.inputAt k).rst

/-- Two states agree on everything that no operation writes: the circuit, the companion registers and the inputs
(R23, R26). -/
abbrev State.SameSurroundings (a b : State) : Prop :=
  a.circuit = b.circuit ∧ a.s1 = b.s1 ∧ a.s2 = b.s2 ∧ a.hbTx = b.hbTx ∧ a.hbRx = b.hbRx ∧ a.inputs = b.inputs

end Sys2Proof.Machine
end

