-- ==== Sys2Proof/Certificates/Slice0/Obligations.lean ====
section
/-! DEFINITION. The statements about the engine, for the provers. N is `circuit.divisor`, L is `len`, one bit period
is `circuit.bitPeriod = N + 1` cycles, and `run n s` is the state after `n` edges. -/

open Sys2Proof Sys2Proof.Machine

/-! ### Encoding -/

/-- The divider and sequencer decode tables, row by row, over all 32 selector words (R44, R45). -/
def Obligations.DecodeTablesAsWritten : Prop :=
  ∀ w : Sel,
    (decodeDivider w = some .reset ↔ w &&& 0b10000 = 0b10000)
    ∧ (decodeDivider w = some .divDec ↔ w &&& 0b11000 = 0b00000)
    ∧ (decodeDivider w = some .divReload ↔ w &&& 0b11000 = 0b01000)
    ∧ decodeDivider w ≠ none
    ∧ (decodeSequencer w = some .reset ↔ w &&& 0b10000 = 0b10000)
    ∧ (decodeSequencer w = some .seqHold ↔ w &&& 0b11000 = 0b00000)
    ∧ (decodeSequencer w = some .shiftBit ↔ w &&& 0b11110 = 0b01000)
    ∧ (decodeSequencer w = some .shiftStop ↔ w &&& 0b11110 = 0b01010)
    ∧ (decodeSequencer w = some .doneAdvance ↔ w &&& 0b11111 = 0b01100)
    ∧ (decodeSequencer w = some .doneHalt ↔ w &&& 0b11111 = 0b01101)
    ∧ (decodeSequencer w = none ↔ w &&& 0b11110 = 0b01110)

/-- Words of the spec's tables and traces decode to the operations the spec names (R44, R45, P1, P3). -/
def Obligations.SpecWordsDecode : Prop :=
  decodeTableWord 8 0b10000 = some .reset ∧ decodeTableWord 8 0b11101 = some .reset
    ∧ decodeTableWord 8 0b00101 = some .seqHold ∧ decodeTableWord 8 0b01001 = some .shiftBit
    ∧ decodeTableWord 8 0b01011 = some .shiftStop ∧ decodeTableWord 8 0b01100 = some .doneAdvance
    ∧ decodeTableWord 8 0b01101 = some .doneHalt ∧ decodeTableWord 8 0b01110 = none
    ∧ decodeEdge 0b00001 = .ok ⟨.divDec, .seqHold⟩ ∧ decodeEdge 0b01100 = .ok ⟨.divReload, .doneAdvance⟩

/-- Decoding an encoded well-formed pair of operations gives it back and leaves the rest of the bytes, a decoded pair
is well formed, and a byte with a bit above the selector word is rejected by name. -/
def Obligations.EncodedPairsDecodeBack : Prop :=
  (∀ (p : EdgeOps) (rest : List Byte), p.wf = true → decode (encodeBytes p ++ rest) = .ok (p, rest))
    ∧ (∀ (w : Sel) (p : EdgeOps), decodeEdge w = .ok p → p.wf = true)
    ∧ (∀ (b : Byte) (rest : List Byte), 32 ≤ b.toNat → decode (b :: rest) = .error .notASelectorWord)

/-- Every bit of a frame: start bit 0, the byte least-significant bit first, stop bit 1 (30_encoding.md section 1). -/
def Obligations.FrameBitsAsListed : Prop :=
  ∀ b : Byte,
    (frame b).getLsbD 0 = false ∧ (∀ k, k < 8 → (frame b).getLsbD (k + 1) = b.getLsbD k)
      ∧ (frame b).getLsbD 9 = true ∧ frame b = 0x200 ||| (b.setWidth 10 <<< 1)

/-- The bits of the selector word are the reset input, the tick, the protocol state and the two comparisons. -/
def Obligations.SelectorBitsOfState : Prop :=
  ∀ s : State,
    s.sel.getLsbD 4 = s.rst ∧ (s.sel.getLsbD 3 = true ↔ s.cnt = 0) ∧ (s.sel.getLsbD 2 = true ↔ s.st = .sendDone)
      ∧ (s.sel.getLsbD 1 = true ↔ s.idx = 9) ∧ (s.sel.getLsbD 0 = true ↔ s.seq = s.len - 1)

/-- The model's placing of a word: the next edge of the state has exactly that selector word, and the state still
satisfies `Inv` unless the word says SEND_DONE with idx = 9 (the model's choice, log 13). -/
def Obligations.FetchWordIsSelected : Prop :=
  ∀ (s : State) (w : Nat), w < 32 →
    (s.withFetchWord 8 w).sel = BitVec.ofNat 5 w
      ∧ (s.Inv → (BitVec.ofNat 5 w &&& 0b00110 : Sel) ≠ 0b00110 → (s.withFetchWord 8 w).Inv)

/-! ### The operations: when each completes, and its whole next state -/

/-- DIV_DEC counts down, guarded so that it never goes below 0, and writes nothing but `cnt` (R50). -/
def Obligations.DivDecCountsDown : Prop :=
  ∀ s : State, s.Inv → s.sel &&& 0b11000 = 0b00000 →
    s.rst = false ∧ 1 ≤ s.cnt ∧ s.tick = false
      ∧ exec .divDec s = .next { s with cnt := s.cnt - 1 }
      ∧ (s.cnt = 1 → ({ s with cnt := s.cnt - 1 } : State).tick = true)
      ∧ (s.circuit.divisor = 1 → ({ s with cnt := s.cnt - 1 } : State).tick = true)

/-- DIV_RELOAD writes N, not N-1, at a tick, on which the sequencer acts at the same edge, and writes nothing but
`cnt` (R51). -/
def Obligations.DivReloadWritesDivisor : Prop :=
  ∀ s : State, s.Inv → s.sel &&& 0b11000 = 0b01000 →
    s.rst = false ∧ s.cnt = 0 ∧ s.tick = true
      ∧ exec .divReload s = .next { s with cnt := s.circuit.divisor }
      ∧ ({ s with cnt := s.circuit.divisor } : State).tick = false
      ∧ (∃ q, decodeSequencer s.sel = some q ∧ q ≠ .seqHold ∧ q ≠ .reset)

/-- SHIFT_BIT drives bit `idx` of the frame of the current byte and advances `idx`; the start bit is 0 and the others
are the byte's bits, and nothing else is written (R57). -/
def Obligations.ShiftBitDrivesFrameBit : Prop :=
  (∀ s : State, s.Inv → s.sel &&& 0b11110 = 0b01000 →
    s.rst = false ∧ s.tick = true ∧ s.st = .sendWait ∧ s.idx ≤ 8
      ∧ ∃ b, s.memRead s.seq = some b
        ∧ exec .shiftBit s = .next { s with tx := (frame b).getLsbD s.idx, idx := s.idx + 1 }
        ∧ (s.idx = 0 → (frame b).getLsbD s.idx = false)
        ∧ (1 ≤ s.idx → (frame b).getLsbD s.idx = b.getLsbD (s.idx - 1)))
    ∧ (∀ i, i ≤ 8 → (frame 0x00).getLsbD i = false)
    ∧ (∀ i, 1 ≤ i → i ≤ 9 → (frame 0xFF).getLsbD i = true)

/-- SHIFT_STOP drives the stop bit, which is 1 for every byte, returns `idx` to 0 and reports completion (R58). -/
def Obligations.ShiftStopDrivesStopBit : Prop :=
  ∀ s : State, s.Inv → s.sel &&& 0b11110 = 0b01010 →
    s.rst = false ∧ s.tick = true ∧ s.st = .sendWait ∧ s.idx = 9
      ∧ (∃ b, s.memRead s.seq = some b ∧ (frame b).getLsbD 9 = true)
      ∧ exec .shiftStop s = .next { s with tx := true, idx := 0, st := .sendDone }

/-- DONE_ADVANCE moves to the next byte and back to SEND_WAIT, and writes nothing else
(42_transmit_sequencer.md section 1). -/
def Obligations.DoneAdvanceMovesToNextByte : Prop :=
  ∀ s : State, s.Inv → s.sel = 0b01100 →
    s.rst = false ∧ s.tick = true ∧ s.st = .sendDone ∧ s.idx = 0 ∧ s.seq + 1 ≤ s.len - 1 ∧ 2 ≤ s.len
      ∧ exec .doneAdvance s = .next { s with seq := s.seq + 1, st := .sendWait }

/-- DONE_HALT writes nothing (42_transmit_sequencer.md section 1). -/
def Obligations.DoneHaltWritesNothing : Prop :=
  ∀ s : State, s.Inv → s.sel = 0b01101 →
    s.rst = false ∧ s.tick = true ∧ s.Terminal ∧ s.idx = 0 ∧ exec .doneHalt s = .next s

/-- SEQ_HOLD, at an edge without a tick, writes nothing (42_transmit_sequencer.md section 1). -/
def Obligations.SeqHoldWritesNothing : Prop :=
  ∀ s : State, s.Inv → s.sel &&& 0b11000 = 0b00000 →
    s.rst = false ∧ s.tick = false ∧ exec .seqHold s = .next s

/-- RESET, in any state with `rst = 1`, also one that breaks `Inv`, writes the five reset values and nothing else
(70_reset_and_hazards.md section 1; that it is accepted where `Inv` is broken is log 8). -/
def Obligations.ResetWritesResetValues : Prop :=
  ∀ s : State, s.sel &&& 0b10000 = 0b10000 →
    s.rst = true
      ∧ exec .reset s
          = .next { s with cnt := s.circuit.divisor, idx := 0, st := .sendWait, seq := 0, tx := true }

/-- When an operation runs and when it is refused. An operation other than RESET runs exactly in a state that satisfies
`Inv` and whose selector word selects it; RESET runs exactly where `rst = 1`, whether `Inv` holds or not. Outside `Inv`
every operation but RESET is refused as unreachableState, selected or not (D9, log 8); an operation not selected is
refused as notSelected under `Inv`, and RESET so in every state (the model's choice, log 7). -/
def Obligations.OperationsRunOrAreRefused : Prop :=
  (∀ (i : Instr) (s : State), i ≠ .reset → ¬ s.Inv → exec i s = .refused .unreachableState)
    ∧ (∀ (i : Instr) (s : State), s.Inv → i.selects s.sel = false → exec i s = .refused .notSelected)
    ∧ (∀ s : State, s.rst = false → exec .reset s = .refused .notSelected)
    ∧ (∀ (i : Instr) (s : State), i ≠ .reset →
        ((∃ t, exec i s = .next t) ↔ s.Inv ∧ i.selects s.sel = true))
    ∧ (∀ s : State, (∃ t, exec .reset s = .next t) ↔ s.rst = true)

/-- What each operation leaves unchanged: the circuit, every byte of the buffer, the companion registers and the
inputs always; and each engine register outside the operations that own it (10_state.md sections 2 and 4). -/
def Obligations.OperationsWriteOnlyTheirRegisters : Prop :=
  ∀ (i : Instr) (s t : State), exec i s = .next t →
    s.SameSurroundings t ∧ (∀ a, t.memRead a = s.memRead a)
      ∧ (i ≠ .divDec ∧ i ≠ .divReload ∧ i ≠ .reset → t.cnt = s.cnt)
      ∧ (i ≠ .shiftBit ∧ i ≠ .shiftStop ∧ i ≠ .reset → t.tx = s.tx ∧ t.idx = s.idx)
      ∧ (i ≠ .shiftStop ∧ i ≠ .doneAdvance ∧ i ≠ .reset → t.st = s.st)
      ∧ (i ≠ .doneAdvance ∧ i ≠ .reset → t.seq = s.seq)

/-! ### The edge -/

/-- A step decodes the selector word and runs the two operations it names, both on the pre-edge state; their writes
land together (00_scope.md section 6, 20_memory.md section 3, 43_edge_step.md section 1). Around them the step moves
the companion registers (60_exceptions.md section 4) and drops the current cycle's inputs (the model's choice of
holding the inputs as a list, log 5). The operations of an edge run together or not at all: where the divider's runs
the sequencer's does too, and where it is refused the step is refused. A word with no sequencer operation is refused.
Both refusals are the model's form of the spec's decision D9 (30_encoding.md section 5, log 8). -/
def Obligations.StepRunsDecodedOperations : Prop :=
  ∀ s : State,
    (∀ (ops : EdgeOps) (d q : State), decodeEdge s.sel = .ok ops →
      exec ops.divider s = .next d → exec ops.sequencer s = .next q →
        step s = .next
          { circuit := s.circuit, cnt := d.cnt, idx := q.idx, st := q.st, seq := q.seq, tx := q.tx,
            s1 := s.nextS1, s2 := s.nextS2, hbTx := s.nextHbTx, hbRx := s.nextHbRx, inputs := s.inputs.tail })
    ∧ (∀ (ops : EdgeOps) (d : State), decodeEdge s.sel = .ok ops → exec ops.divider s = .next d →
        ∃ q, exec ops.sequencer s = .next q)
    ∧ (∀ (ops : EdgeOps) (r : Refusal), decodeEdge s.sel = .ok ops → exec ops.divider s = .refused r →
        exec ops.sequencer s = .refused r ∧ step s = .refused r)
    ∧ (∀ e, decodeEdge s.sel = .error e → step s = .refused .unreachableState)

/-- The composite edge step, register by register (R69). -/
def Obligations.StepIsCompositeEdge : Prop :=
  ∀ s : State,
    (s.rst = true → ∃ t, step s = .next t ∧ t.circuit = s.circuit ∧ t.InReset)
    ∧ (s.rst = false → s.Inv → ∃ t, step s = .next t ∧ t.circuit = s.circuit
        ∧ (s.cnt = 0 → t.cnt = s.circuit.divisor) ∧ (s.cnt ≠ 0 → t.cnt = s.cnt - 1)
        ∧ (s.cnt ≠ 0 → t.idx = s.idx ∧ t.st = s.st ∧ t.seq = s.seq ∧ t.tx = s.tx)
        ∧ (s.cnt = 0 → s.st = .sendWait → s.idx ≠ 9 →
            s.frameBit s.idx = some t.tx ∧ t.idx = s.idx + 1 ∧ t.st = .sendWait ∧ t.seq = s.seq)
        ∧ (s.cnt = 0 → s.st = .sendWait → s.idx = 9 →
            t.tx = true ∧ t.idx = 0 ∧ t.st = .sendDone ∧ t.seq = s.seq)
        ∧ (s.cnt = 0 → s.st = .sendDone → s.seq ≠ s.len - 1 →
            t.seq = s.seq + 1 ∧ t.st = .sendWait ∧ t.idx = s.idx ∧ t.tx = s.tx)
        ∧ (s.cnt = 0 → s.st = .sendDone → s.seq = s.len - 1 →
            t.seq = s.seq ∧ t.st = .sendDone ∧ t.idx = s.idx ∧ t.tx = s.tx))

/-- A step with `rst = 0` from a state that breaks `Inv` is refused by name (30_encoding.md section 5, D9; log 8). -/
def Obligations.StepRefusesUnreachableStates : Prop :=
  ∀ s : State, s.rst = false → ¬ s.Inv → step s = .refused .unreachableState

/-- No fault in any state at any edge, and from a state that satisfies `Inv` the engine runs on for ever, whatever
its inputs (R76). -/
def Obligations.NoRuntimeError : Prop :=
  (∀ (s : State) (r : Fault), step s ≠ .fault r)
    ∧ (∀ (n : Nat) (s : State), s.Inv → ∃ t, run n s = .next t ∧ t.Inv)

/-! ### Invariants -/

/-- Every step from a state that satisfies `Inv` gives one that does (10_state.md section 4). -/
def Obligations.EveryStepKeepsInv : Prop :=
  ∀ s t : State, s.Inv → step s = .next t → t.Inv

/-- Every step keeps the line register on the frame bit driven last, or on the idle level outside a frame. -/
def Obligations.EveryStepKeepsLineOnFrame : Prop :=
  ∀ s t : State, s.LineInv → step s = .next t → t.LineInv

/-- Every step keeps both HeartbeatBlink counters within 0 .. HB_CEIL (60_exceptions.md section 4). -/
def Obligations.EveryStepKeepsHeartbeatRange : Prop :=
  ∀ s t : State, s.CompanionsInRange → step s = .next t → t.CompanionsInRange

/-- The reset state of every circuit, with any inputs to come: the reset values, no tick, and all invariants; and the
machine's reset is that of the source's example, N = 104 with 7 bytes (70_reset_and_hazards.md section 1; the choice
of the example is log 3, the companions' power-on values log 11). -/
def Obligations.ResetStateIsSafe : Prop :=
  (∀ (c : Circuit) (ins : List Inputs),
    (State.start c ins).InReset ∧ (State.start c ins).tick = false ∧ (State.start c ins).Safe
      ∧ (State.start c ins).s1 = c.companions.syncReset ∧ (State.start c ins).s2 = c.companions.syncReset
      ∧ (State.start c ins).hbTx = 0 ∧ (State.start c ins).hbRx = 0)
    ∧ (∃ c, State.reset = State.start c [] ∧ c.divisor = 104 ∧ c.length = 7)

/-- Under `Inv` every register fits its width, and W_CNT is the least width that holds N (40_clock_divider.md
section 2, 00_scope.md section 4; W_IDX and W_SEQ are D8). -/
def Obligations.RegistersFitTheirWidths : Prop :=
  ∀ s : State, s.Inv →
    s.cnt < 2 ^ s.circuit.cntWidth ∧ s.circuit.divisor ≤ 2 ^ s.circuit.cntWidth - 1
      ∧ 2 ^ (s.circuit.cntWidth - 1) ≤ s.circuit.divisor
      ∧ s.idx < 2 ^ idxWidth ∧ s.seq < 2 ^ s.circuit.seqWidth

/-! ### The buffer -/

/-- `MemRead(i, 1)` gives BUF[i] inside the buffer, and no run changes the circuit or any byte of it
(20_memory.md section 1). That it gives nothing outside the buffer is the model's (log 16, DEDUCED). -/
def Obligations.BufferReadsAreConstant : Prop :=
  (∀ (s : State) (i : Nat), s.memRead i = (s.circuit.buf[i]?).map Prod.snd)
    ∧ (∀ (s : State) (i : Nat), i < s.len → ∃ b, s.memRead i = some b)
    ∧ (∀ (n : Nat) (s t : State), run n s = .next t →
        t.circuit = s.circuit ∧ ∀ i, t.memRead i = s.memRead i)

/-! ### The divider -/

/-- The divider is free-running: at an edge with `rst = 0` it counts down or reloads whatever the rest of the engine
holds, and ticks in the terminal state do not touch the line (R56). -/
def Obligations.DividerIsFreeRunning : Prop :=
  (∀ s : State, s.Inv → s.rst = false →
    (decodeDivider s.sel = some .divDec ∨ decodeDivider s.sel = some .divReload)
      ∧ ∃ t, step s = .next t ∧ (s.Terminal → t.tx = s.tx))
    ∧ (∀ a b ta tb : State, a.circuit.divisor = b.circuit.divisor → a.cnt = b.cnt → a.rst = b.rst →
        step a = .next ta → step b = .next tb → ta.cnt = tb.cnt)

/-- Ticks come at the end of the countdown and then every N+1 edges, no other cycle has one, from any state that
satisfies `Inv` while no reset intervenes (40_clock_divider.md section 2). -/
def Obligations.TicksAreEveryBitPeriod : Prop :=
  ∀ (s : State) (n : Nat), s.Inv → s.NoReset n →
    ∃ t, run n s = .next t ∧ (t.tick = true ↔ ∃ k, n = s.cnt + k * s.circuit.bitPeriod)

/-- States that differ only in the phase of the divider differ only in time: the longer countdown reaches the shorter
one with everything else as it was (10_state.md section 4). -/
def Obligations.DividerPhaseIsOnlyTiming : Prop :=
  ∀ (s : State) (c : Nat), s.Inv → c ≤ s.cnt → s.NoReset (s.cnt - c) →
    ∃ t, run (s.cnt - c) s = .next t ∧ t.SameEngine { s with cnt := c }

/-! ### Frames and the message -/

/-- Outside SEND_DONE the byte being sent cannot change: `seq` moves only at a tick in SEND_DONE or by reset, and the
frame's bits stay what they were (41_frame_shifter.md section 2). -/
def Obligations.ByteIsStableDuringFrame : Prop :=
  ∀ s t : State, s.rst = false → step s = .next t →
    (s.st = .sendWait → t.seq = s.seq ∧ ∀ i, t.frameBit i = s.frameBit i)
      ∧ (t.seq ≠ s.seq → s.st = .sendDone ∧ s.tick = true)

/-- A frame started in (SEND_WAIT, idx = 0) drives the frame's ten bits on ten consecutive ticks, each for one bit
period, and reports completion after the tenth and not before (41_frame_shifter.md section 2). -/
def Obligations.FrameGoesOutBitByBit : Prop :=
  ∀ (s : State) (b : Byte) (n : Nat), s.Inv → s.st = .sendWait → s.idx = 0 → s.memRead s.seq = some b →
    s.NoReset n →
    ∃ t, run n s = .next t
      ∧ (n ≤ s.cnt → t.tx = s.tx ∧ t.idx = 0 ∧ t.st = .sendWait ∧ t.seq = s.seq)
      ∧ (∀ r, r ≤ 9 → s.cnt + r * s.circuit.bitPeriod < n → n ≤ s.cnt + (r + 1) * s.circuit.bitPeriod →
          t.tx = (frame b).getLsbD r ∧ t.seq = s.seq ∧ (t.st = .sendDone ↔ r = 9)
            ∧ (r ≤ 8 → t.idx = r + 1) ∧ (r = 9 → t.idx = 0))

/-- Between two frames the line is 1 for exactly two bit periods: from a SHIFT_STOP edge of a byte that is not the
last to the next byte's start bit (42_transmit_sequencer.md section 2, conflict C3). -/
def Obligations.InterFrameGapIsOneBitPeriod : Prop :=
  ∀ (s : State) (n : Nat), s.Inv → s.sel &&& 0b11110 = 0b01010 → s.seq < s.len - 1 → s.NoReset n →
    (1 ≤ n → n ≤ 2 * s.circuit.bitPeriod → ∃ t, run n s = .next t ∧ t.tx = true)
      ∧ (n = 2 * s.circuit.bitPeriod + 1 →
          ∃ t, run n s = .next t ∧ t.tx = false ∧ t.seq = s.seq + 1 ∧ t.idx = 1 ∧ t.st = .sendWait)

/-- The line changes only at a SHIFT_BIT or SHIFT_STOP edge or by reset, and a new level holds for at least one bit
period while no reset intervenes (20_memory.md section 3). -/
def Obligations.LineHoldsForBitPeriod : Prop :=
  ∀ s t : State, step s = .next t → t.tx ≠ s.tx →
    s.rst = true
      ∨ ((decodeSequencer s.sel = some .shiftBit ∨ decodeSequencer s.sel = some .shiftStop)
          ∧ ∀ n, n ≤ s.circuit.divisor → t.NoReset n → ∃ u, run n t = .next u ∧ u.tx = t.tx)

/-- `seq` never exceeds L-1, never falls, moves only by DONE_ADVANCE and by one, and from reset takes every value
0, 1, ..., L-1 (R66). -/
def Obligations.SequencerIndexCountsUp : Prop :=
  (∀ s t : State, s.Inv → s.rst = false → step s = .next t →
    t.seq ≤ t.len - 1
      ∧ (t.seq = s.seq
          ∨ (t.seq = s.seq + 1 ∧ s.seq < s.len - 1 ∧ decodeSequencer s.sel = some .doneAdvance)))
    ∧ (∀ (m n : Nat) (s t u : State), s.Inv → s.NoReset (m + n) → run m s = .next t → run n t = .next u →
        t.seq ≤ u.seq)
    ∧ (∀ (c : Circuit) (ins : List Inputs) (j : Nat), (∀ n, (State.start c ins).NoReset n) → j < c.length →
        ∃ n t, run n (State.start c ins) = .next t ∧ t.seq = j)

/-- Once terminal, for ever terminal while no reset comes: every later edge is SEQ_HOLD or DONE_HALT, `st`, `idx`,
`seq` stay and the line rests at 1 (R67). -/
def Obligations.TerminalStateIsKept : Prop :=
  ∀ (s : State) (n : Nat), s.LineInv → s.Terminal → s.NoReset (n + 1) →
    ∃ t, run n s = .next t ∧ t.Terminal ∧ t.seq = s.seq ∧ t.idx = 0 ∧ t.tx = true
      ∧ (decodeSequencer t.sel = some .seqHold ∨ decodeSequencer t.sel = some .doneHalt)

/-- The line schedule: the level of `tx` in every cycle after reset, for every circuit (43_edge_step.md section 2). -/
def Obligations.LineScheduleFromReset : Prop :=
  ∀ (c : Circuit) (ins : List Inputs) (n : Nat), (State.start c ins).NoReset n →
    ∃ t, run n (State.start c ins) = .next t
      ∧ (n < c.bitPeriod → t.tx = true)
      ∧ (∀ j r b, j < c.length → r ≤ 8 → c.buf.read j = some b →
          (11 * j + r + 1) * c.bitPeriod ≤ n → n < (11 * j + r + 2) * c.bitPeriod → t.tx = (frame b).getLsbD r)
      ∧ (∀ j, j < c.length - 1 → (11 * j + 10) * c.bitPeriod ≤ n → n < (11 * j + 12) * c.bitPeriod → t.tx = true)
      ∧ ((11 * (c.length - 1) + 10) * c.bitPeriod ≤ n → t.tx = true)

/-- The protocol-state schedule: SEND_DONE lasts one bit period between bytes, byte `j` is current from cycle
11j(N+1), and the terminal state is reached exactly in cycle (11L-1)(N+1) (43_edge_step.md section 2). -/
def Obligations.ProtocolScheduleFromReset : Prop :=
  ∀ (c : Circuit) (ins : List Inputs) (n : Nat), (State.start c ins).NoReset n →
    ∃ t, run n (State.start c ins) = .next t
      ∧ (∀ j, j < c.length - 1 →
          ((11 * j + 10) * c.bitPeriod ≤ n ∧ n < (11 * j + 11) * c.bitPeriod → t.st = .sendDone))
      ∧ (∀ j, j < c.length → 11 * j * c.bitPeriod ≤ n → (j < c.length - 1 → n < 11 * (j + 1) * c.bitPeriod) →
          t.seq = j)
      ∧ (t.Terminal ↔ (11 * c.length - 1) * c.bitPeriod ≤ n)

/-! ### Reset in a run -/

/-- While `rst = 1` the engine stays in the reset state, the line at 1 and no tick, from any state
(70_reset_and_hazards.md section 1). -/
def Obligations.ResetHeldKeepsResetState : Prop :=
  ∀ (s : State) (n : Nat), 1 ≤ n → s.ResetHeld n →
    ∃ t, run n s = .next t ∧ t.circuit = s.circuit ∧ t.InReset ∧ t.tick = false ∧ t.Inv

/-- A reset at any edge, mid-frame too, puts the line at 1 for one bit period, and byte 0's start bit follows in
cycle N+1 after it (70_reset_and_hazards.md section 1). -/
def Obligations.ResetCutsFrameAndRestarts : Prop :=
  ∀ (s : State) (n : Nat), s.rst = true → (∀ k, 1 ≤ k → k < n → (s.inputAt k).rst = false) →
    (1 ≤ n → n ≤ s.circuit.bitPeriod → ∃ t, run n s = .next t ∧ t.tx = true)
      ∧ (n = s.circuit.bitPeriod + 1 →
          ∃ t, run n s = .next t ∧ t.tx = false ∧ t.st = .sendWait ∧ t.idx = 1 ∧ t.seq = 0)

/-- After the terminal state nothing is sent again without a reset, and a reset at any time restarts the whole
message: from then on the engine is the one started from reset (R96). -/
def Obligations.NoRetransmissionWithoutReset : Prop :=
  (∀ (s : State) (n : Nat), s.LineInv → s.Terminal → s.NoReset n → ∃ t, run n s = .next t ∧ t.tx = true)
    ∧ (∀ (s : State) (n : Nat), s.rst = true →
        ∃ u v, run (n + 1) s = .next u ∧ run n (State.start s.circuit s.inputs.tail) = .next v
          ∧ u.SameEngine v)

/-! ### Determinism and independence -/

/-- The step is total under `Inv`, and the engine's run, hence its line, depends on N, BUF, the five registers and the
reset inputs alone: not on the companion blocks, their parameters or their inputs (R70). -/
def Obligations.EngineDependsOnResetsAlone : Prop :=
  (∀ s : State, s.Inv → ∃ t, step s = .next t)
    ∧ (∀ (n : Nat) (a b ta : State), a.SameEngine b → a.SameResets b n → run n a = .next ta →
        ∃ tb, run n b = .next tb ∧ ta.SameEngine tb)

/-! ### Companion blocks (60_exceptions.md section 4) -/

/-- The Synchronizer's edge. -/
def Obligations.SynchronizerShiftsInput : Prop :=
  ∀ s t : State, step s = .next t →
    (s.rst = true → t.s1 = s.circuit.companions.syncReset ∧ t.s2 = s.circuit.companions.syncReset)
      ∧ (s.rst = false → t.s1 = s.input.rxAsync ∧ t.s2 = s.s1)

/-- A level on the input is on `rx_sync` exactly two edges later, and for the two cycles after a reset `rx_sync` is
SYNC_RESET whatever the input is. -/
def Obligations.SynchronizerLatencyIsTwoEdges : Prop :=
  (∀ s : State, s.Inv → s.NoReset 2 →
    ∃ t u, run 1 s = .next t ∧ run 2 s = .next u ∧ t.rxSync = s.s1 ∧ u.rxSync = s.input.rxAsync)
    ∧ (∀ s : State, s.rst = true → (s.inputAt 1).rst = false →
      ∃ t u, run 1 s = .next t ∧ run 2 s = .next u ∧ t.rxSync = s.circuit.companions.syncReset
        ∧ u.rxSync = s.circuit.companions.syncReset)

/-- The HeartbeatBlink counters' edge: reset to 0, else reload while the monitored signal is 1, else count down to 0. For
a value above HB_CEIL, which no run reaches, this is the model's choice (log 18). -/
def Obligations.HeartbeatCountersReloadAndCount : Prop :=
  ∀ s t : State, step s = .next t →
    (s.rst = true → t.hbTx = 0 ∧ t.hbRx = 0)
      ∧ (s.rst = false → s.monTx = true → t.hbTx = s.circuit.companions.hbCeil)
      ∧ (s.rst = false → s.monTx = false → t.hbTx = s.hbTx - 1)
      ∧ (s.rst = false → s.monRx = true → t.hbRx = s.circuit.companions.hbCeil)
      ∧ (s.rst = false → s.monRx = false → t.hbRx = s.hbRx - 1)

/-- An indicator is lit exactly while its counter is at least 2^(W_HB - 1). -/
def Obligations.IndicatorThresholdIsHalfRange : Prop :=
  ∀ s : State, s.CompanionsInRange →
    (s.ledTx = true ↔ 2 ^ (s.circuit.companions.hbWidth - 1) ≤ s.hbTx)
      ∧ (s.ledRx = true ↔ 2 ^ (s.circuit.companions.hbWidth - 1) ≤ s.hbRx)

/-- After the last assertion of its monitored signal an indicator stays lit for max(0, HB_CEIL - 2^(W_HB-1) + 1)
cycles: `n` cycles after the reload it is lit exactly when `n` is below that number. -/
def Obligations.IndicatorStaysLitForDuration : Prop :=
  ∀ (s : State) (n : Nat), s.Inv → s.NoReset (n + 1) →
    ∃ t, run (n + 1) s = .next t
      ∧ (s.monTx = true → (∀ k u, 1 ≤ k → k ≤ n → run k s = .next u → u.monTx = false) →
          (t.ledTx = true
            ↔ n < s.circuit.companions.hbCeil + 1 - 2 ^ (s.circuit.companions.hbWidth - 1)))
      ∧ (s.monRx = true → (∀ k u, 1 ≤ k → k ≤ n → run k s = .next u → u.monRx = false) →
          (t.ledRx = true
            ↔ n < s.circuit.companions.hbCeil + 1 - 2 ^ (s.circuit.companions.hbWidth - 1)))

/-! ### Construction -/

/-- Which parameters fail which check, that the failing codes come in the order CE1 to CE6, and that construction is
refused exactly when some check fails, with all failing codes (60_exceptions.md section 1; D12, D13). -/
def Obligations.ConstructionChecks : Prop :=
  ∀ p : Params,
    (.ce1 ∈ failingCodes p ↔ (∃ t baud, p.divisor = .rates (.periodNs t) baud ∧ t ≤ 0)
        ∨ (∃ f baud, p.divisor = .rates (.frequencyHz f) baud ∧ f ≤ 0))
      ∧ (.ce2 ∈ failingCodes p ↔ ∃ clock baud, p.divisor = .rates clock baud ∧ baud ≤ 0)
      ∧ (.ce3 ∈ failingCodes p ↔ (∃ t baud, p.divisor = .rates (.periodNs t) baud ∧ t ≠ 0 ∧ 10 ^ 9 / t < baud)
          ∨ (∃ f baud, p.divisor = .rates (.frequencyHz f) baud ∧ f < baud))
      ∧ (.ce4 ∈ failingCodes p ↔ p.buf = [])
      ∧ (.ce5 ∈ failingCodes p ↔ ∃ b ∈ p.buf, b < 0 ∨ 255 < b)
      ∧ (.ce6 ∈ failingCodes p ↔ ∃ n, p.divisor = .direct n ∧ n < 1)
      ∧ (failingCodes p).Sublist [.ce1, .ce2, .ce3, .ce4, .ce5, .ce6]
      ∧ (failingCodes p ≠ [] → construct p = .error (failingCodes p))
      ∧ (failingCodes p = [] → ∃ c, construct p = .ok c)

/-- A constructed circuit: its divisor is the nearest integer to the ratio of the rates, a tie rounded up (or N as
given), at least 1, and its buffer holds the given bytes in order (40_clock_divider.md section 2, D5;
00_scope.md section 4). -/
def Obligations.ConstructedCircuitIsAsGiven : Prop :=
  ∀ (p : Params) (c : Circuit), construct p = .ok c →
    1 ≤ c.divisor ∧ c.length = p.buf.length ∧ c.companions = p.companions
      ∧ (∀ i b, p.buf[i]? = some b → ∃ v : Byte, c.buf.read i = some v ∧ (v.toNat : Int) = b)
      ∧ (∀ n, p.divisor = .direct n → (c.divisor : Int) = n)
      ∧ (∀ clock baud f, p.divisor = .rates clock baud → DrivingClock.frequency clock = some f →
          (c.divisor : Rat) - 1 / 2 ≤ f / baud ∧ f / baud < (c.divisor : Rat) + 1 / 2)

/-- A driving clock given as a period is the clock of frequency 10^9 / P_NS exactly, with no rounding of the period
(40_clock_divider.md section 2, D6). -/
def Obligations.PeriodIsUsedExactly : Prop :=
  ∀ (t baud : Rat) (buf : List Int) (k : Companions), t ≠ 0 →
    construct ⟨.rates (.periodNs t) baud, buf, k⟩ = construct ⟨.rates (.frequencyHz (10 ^ 9 / t)) baud, buf, k⟩

/-- The bit period is N+1 cycles, the actual bit rate F_DRV / (N+1), so one bit lasts one bit period of the driving
clock; the byte rate is F_DRV / (11 (N+1)), so one byte with its idle period lasts eleven bit periods; and the ratio
of the bit rate to the target is F_DRV / ((N+1) F_BAUD) (43_edge_step.md section 2). The bit period is the one of
TicksAreEveryBitPeriod and of the schedules. -/
def Obligations.ActualRates : Prop :=
  ∀ (c : Circuit) (drv baud : Rat), baud ≠ 0 →
    c.bitPeriod = c.divisor + 1
      ∧ actualBitRate drv c = drv / ((c.divisor : Rat) + 1)
      ∧ actualBitRate drv c * c.bitPeriod = drv
      ∧ actualByteRate drv c = drv / (11 * ((c.divisor : Rat) + 1))
      ∧ actualByteRate drv c * (11 * c.bitPeriod) = drv
      ∧ bitRateRatio drv baud c = drv / (((c.divisor : Rat) + 1) * baud)
      ∧ bitRateRatio drv baud c * baud = actualBitRate drv c
end

