-- ==== Sys2Proof/Laws/Memory.lean ====
section
/-! SUPPORT. The message buffer: its canonical form, and what a read gives. The engine has no memory write (R29), so
the operations that keep the form are the building of a buffer and its lengthening for `withFetchWord`. -/

namespace Sys2Proof

/-- In canonical form the addresses rise strictly. -/
theorem Memory.addresses_increasing {m : Memory} (h : m.wf) : (m.map Prod.fst).Pairwise (· < ·) := by
  rw [h]; exact List.pairwise_lt_range

/-- The buffer of every circuit is in canonical form. -/
theorem Circuit.buf_canonical (c : Circuit) : c.buf.wf := c.buf_wf

theorem Circuit.one_le_length (c : Circuit) : 1 ≤ c.length := c.buf_nonempty

/-- Cell `i` of a buffer in canonical form has address `i`. -/
theorem Memory.fst_getElem {m : Memory} (h : m.wf) (i : Nat) (hi : i < m.length) : (m[i]).1 = i := by
  have : (m.map Prod.fst)[i]'(by simpa using hi) = (List.range m.length)[i]'(by simpa using hi) := by
    simp only [h]
  simpa using this

/-- What a read can give: inside the buffer the byte of cell `i`, outside it nothing. -/
theorem Memory.read_eq {m : Memory} (h : m.wf) (i : Nat) : m.read i = (m[i]?).map Prod.snd := by
  unfold Memory.read
  by_cases hi : i < m.length
  · have key : m.find? (fun cell => cell.1 == i) = some m[i] := by
      rw [List.find?_eq_some_iff_getElem]
      refine ⟨by simp [Memory.fst_getElem h i hi], i, hi, rfl, ?_⟩
      intro j hj
      have := Memory.fst_getElem h j (by omega)
      simp [this]; omega
    simp [key, hi]
  · have key : m.find? (fun cell => cell.1 == i) = none := by
      rw [List.find?_eq_none]
      intro x hx
      obtain ⟨j, hj, rfl⟩ := List.getElem_of_mem hx
      simp [Memory.fst_getElem h j hj]; omega
    simp [key, Nat.le_of_not_lt hi]

/-- Inside the buffer a read gives a byte. -/
theorem Circuit.read_isSome (c : Circuit) {i : Nat} (h : i < c.length) : ∃ b, c.buf.read i = some b := by
  refine ⟨(c.buf[i]'h).2, ?_⟩
  have hi : i < c.buf.length := h
  rw [Memory.read_eq c.buf_wf, List.getElem?_eq_getElem hi]
  rfl

/-- Outside the buffer a read gives nothing. -/
theorem Circuit.read_eq_none (c : Circuit) {i : Nat} (h : c.length ≤ i) : c.buf.read i = none := by
  have hi : c.buf.length ≤ i := h
  simp [Memory.read_eq c.buf_wf, hi]

theorem Memory.getElem?_ofBytesFrom (bs : List Byte) :
    ∀ k i, (Memory.ofBytesFrom k bs)[i]? = (bs[i]?).map fun b => (k + i, b) := by
  induction bs with
  | nil => intro k i; simp [Memory.ofBytesFrom]
  | cons b bs ih =>
    intro k i
    cases i with
    | zero => simp [Memory.ofBytesFrom]
    | succ i => simp [Memory.ofBytesFrom, ih, Nat.add_assoc, Nat.add_comm 1 i]

/-- A buffer made from bytes reads as those bytes. -/
theorem Memory.read_ofBytes (bs : List Byte) (i : Nat) : (Memory.ofBytes bs).read i = bs[i]? := by
  rw [Memory.read_eq (Memory.ofBytes_wf bs), Memory.ofBytes, Memory.getElem?_ofBytesFrom, Option.map_map]
  cases bs[i]? <;> rfl

/-- A circuit with two bytes has two bytes. -/
theorem Circuit.two_le_withTwoBytes (c : Circuit) : 2 ≤ c.withTwoBytes.length := by
  unfold Circuit.withTwoBytes
  split
  · assumption
  · have := c.buf_nonempty
    simpa [Circuit.length] using this

end Sys2Proof

namespace Sys2Proof.Machine

/-- In a state that satisfies `Inv` the byte being sent can be read (R30). -/
theorem State.Inv.memRead_isSome {s : State} (h : s.Inv) : ∃ b, s.memRead s.seq = some b := by
  have h1 := s.circuit.one_le_length
  have h2 := h.2.2.1
  exact s.circuit.read_isSome (by simp only [State.len] at h2; omega)

/-- In a state that satisfies `Inv` every frame bit has a value. -/
theorem State.Inv.frameBit_isSome {s : State} (h : s.Inv) (i : Nat) : ∃ v, s.frameBit i = some v := by
  obtain ⟨b, hb⟩ := h.memRead_isSome
  exact ⟨(frame b).getLsbD i, by simp [State.frameBit, hb]⟩

/-- Bit 9 of every frame is the stop bit 1 (R40, R58). -/
theorem frame_stop (b : Byte) : (frame b).getLsbD 9 = true := by
  revert b; decide

/-- Bit 0 of every frame is the start bit 0 (R40). -/
theorem frame_start (b : Byte) : (frame b).getLsbD 0 = false := by
  revert b; decide

/-- The stop bit of the frame being sent, where it has a value. -/
theorem State.Inv.frameBit_stop {s : State} (h : s.Inv) : s.frameBit 9 = some true := by
  obtain ⟨b, hb⟩ := h.memRead_isSome
  simp [State.frameBit, hb, frame_stop]

end Sys2Proof.Machine
end

