-- ==== Sys2Proof/Laws/PerInstr.lean ====
section
/-! SUPPORT. A law stated for each operation as syntax: it is well formed, its match value lies within its mask, it
belongs to a decode table, and its own word selects it. -/

namespace Sys2Proof.Laws.RowShape

def Statement (i : Instr) : Prop :=
  i.wf = true ∧ i.pattern &&& i.mask = i.pattern ∧ (i.isDivider || i.isSequencer) = true
    ∧ i.selects (encode i) = true

theorem reset : Statement .reset := by unfold Statement; decide
theorem divDec : Statement .divDec := by unfold Statement; decide
theorem divReload : Statement .divReload := by unfold Statement; decide
theorem seqHold : Statement .seqHold := by unfold Statement; decide
theorem shiftBit : Statement .shiftBit := by unfold Statement; decide
theorem shiftStop : Statement .shiftStop := by unfold Statement; decide
theorem doneAdvance : Statement .doneAdvance := by unfold Statement; decide
theorem doneHalt : Statement .doneHalt := by unfold Statement; decide

end Sys2Proof.Laws.RowShape
end

