-- ==== Sys2Proof/Laws/State.lean ====
section
/-! SUPPORT. One lemma for each field of each register write, and for the commit of an edge. -/

namespace Sys2Proof.Machine

section writes
variable (s d q : State) (n : Nat) (b : Bool) (p : ProtocolState)

@[simp] theorem State.setCnt_circuit : (s.setCnt n).circuit = s.circuit := rfl
@[simp] theorem State.setCnt_cnt : (s.setCnt n).cnt = n := rfl
@[simp] theorem State.setCnt_idx : (s.setCnt n).idx = s.idx := rfl
@[simp] theorem State.setCnt_st : (s.setCnt n).st = s.st := rfl
@[simp] theorem State.setCnt_seq : (s.setCnt n).seq = s.seq := rfl
@[simp] theorem State.setCnt_tx : (s.setCnt n).tx = s.tx := rfl
@[simp] theorem State.setCnt_s1 : (s.setCnt n).s1 = s.s1 := rfl
@[simp] theorem State.setCnt_s2 : (s.setCnt n).s2 = s.s2 := rfl
@[simp] theorem State.setCnt_hbTx : (s.setCnt n).hbTx = s.hbTx := rfl
@[simp] theorem State.setCnt_hbRx : (s.setCnt n).hbRx = s.hbRx := rfl
@[simp] theorem State.setCnt_inputs : (s.setCnt n).inputs = s.inputs := rfl

@[simp] theorem State.setIdx_circuit : (s.setIdx n).circuit = s.circuit := rfl
@[simp] theorem State.setIdx_cnt : (s.setIdx n).cnt = s.cnt := rfl
@[simp] theorem State.setIdx_idx : (s.setIdx n).idx = n := rfl
@[simp] theorem State.setIdx_st : (s.setIdx n).st = s.st := rfl
@[simp] theorem State.setIdx_seq : (s.setIdx n).seq = s.seq := rfl
@[simp] theorem State.setIdx_tx : (s.setIdx n).tx = s.tx := rfl
@[simp] theorem State.setIdx_s1 : (s.setIdx n).s1 = s.s1 := rfl
@[simp] theorem State.setIdx_s2 : (s.setIdx n).s2 = s.s2 := rfl
@[simp] theorem State.setIdx_hbTx : (s.setIdx n).hbTx = s.hbTx := rfl
@[simp] theorem State.setIdx_hbRx : (s.setIdx n).hbRx = s.hbRx := rfl
@[simp] theorem State.setIdx_inputs : (s.setIdx n).inputs = s.inputs := rfl

@[simp] theorem State.setSt_circuit : (s.setSt p).circuit = s.circuit := rfl
@[simp] theorem State.setSt_cnt : (s.setSt p).cnt = s.cnt := rfl
@[simp] theorem State.setSt_idx : (s.setSt p).idx = s.idx := rfl
@[simp] theorem State.setSt_st : (s.setSt p).st = p := rfl
@[simp] theorem State.setSt_seq : (s.setSt p).seq = s.seq := rfl
@[simp] theorem State.setSt_tx : (s.setSt p).tx = s.tx := rfl
@[simp] theorem State.setSt_s1 : (s.setSt p).s1 = s.s1 := rfl
@[simp] theorem State.setSt_s2 : (s.setSt p).s2 = s.s2 := rfl
@[simp] theorem State.setSt_hbTx : (s.setSt p).hbTx = s.hbTx := rfl
@[simp] theorem State.setSt_hbRx : (s.setSt p).hbRx = s.hbRx := rfl
@[simp] theorem State.setSt_inputs : (s.setSt p).inputs = s.inputs := rfl

@[simp] theorem State.setSeq_circuit : (s.setSeq n).circuit = s.circuit := rfl
@[simp] theorem State.setSeq_cnt : (s.setSeq n).cnt = s.cnt := rfl
@[simp] theorem State.setSeq_idx : (s.setSeq n).idx = s.idx := rfl
@[simp] theorem State.setSeq_st : (s.setSeq n).st = s.st := rfl
@[simp] theorem State.setSeq_seq : (s.setSeq n).seq = n := rfl
@[simp] theorem State.setSeq_tx : (s.setSeq n).tx = s.tx := rfl
@[simp] theorem State.setSeq_s1 : (s.setSeq n).s1 = s.s1 := rfl
@[simp] theorem State.setSeq_s2 : (s.setSeq n).s2 = s.s2 := rfl
@[simp] theorem State.setSeq_hbTx : (s.setSeq n).hbTx = s.hbTx := rfl
@[simp] theorem State.setSeq_hbRx : (s.setSeq n).hbRx = s.hbRx := rfl
@[simp] theorem State.setSeq_inputs : (s.setSeq n).inputs = s.inputs := rfl

@[simp] theorem State.setTx_circuit : (s.setTx b).circuit = s.circuit := rfl
@[simp] theorem State.setTx_cnt : (s.setTx b).cnt = s.cnt := rfl
@[simp] theorem State.setTx_idx : (s.setTx b).idx = s.idx := rfl
@[simp] theorem State.setTx_st : (s.setTx b).st = s.st := rfl
@[simp] theorem State.setTx_seq : (s.setTx b).seq = s.seq := rfl
@[simp] theorem State.setTx_tx : (s.setTx b).tx = b := rfl
@[simp] theorem State.setTx_s1 : (s.setTx b).s1 = s.s1 := rfl
@[simp] theorem State.setTx_s2 : (s.setTx b).s2 = s.s2 := rfl
@[simp] theorem State.setTx_hbTx : (s.setTx b).hbTx = s.hbTx := rfl
@[simp] theorem State.setTx_hbRx : (s.setTx b).hbRx = s.hbRx := rfl
@[simp] theorem State.setTx_inputs : (s.setTx b).inputs = s.inputs := rfl

@[simp] theorem State.commit_circuit : (s.commit d q).circuit = s.circuit := rfl
@[simp] theorem State.commit_cnt : (s.commit d q).cnt = d.cnt := rfl
@[simp] theorem State.commit_idx : (s.commit d q).idx = q.idx := rfl
@[simp] theorem State.commit_st : (s.commit d q).st = q.st := rfl
@[simp] theorem State.commit_seq : (s.commit d q).seq = q.seq := rfl
@[simp] theorem State.commit_tx : (s.commit d q).tx = q.tx := rfl
@[simp] theorem State.commit_s1 : (s.commit d q).s1 = s.nextS1 := rfl
@[simp] theorem State.commit_s2 : (s.commit d q).s2 = s.nextS2 := rfl
@[simp] theorem State.commit_hbTx : (s.commit d q).hbTx = s.nextHbTx := rfl
@[simp] theorem State.commit_hbRx : (s.commit d q).hbRx = s.nextHbRx := rfl
@[simp] theorem State.commit_inputs : (s.commit d q).inputs = s.inputs.tail := rfl

end writes

/-- The inputs of the cycles after an edge are those that were to come. -/
@[simp] theorem State.commit_inputAt (s d q : State) (k : Nat) : (s.commit d q).inputAt k = s.inputAt (k + 1) := by
  cases h : s.inputs <;> simp [State.inputAt, h]

section starts
variable (c : Circuit) (ins : List Inputs)

@[simp] theorem State.start_circuit : (State.start c ins).circuit = c := rfl
@[simp] theorem State.start_cnt : (State.start c ins).cnt = c.divisor := rfl
@[simp] theorem State.start_idx : (State.start c ins).idx = 0 := rfl
@[simp] theorem State.start_st : (State.start c ins).st = .sendWait := rfl
@[simp] theorem State.start_seq : (State.start c ins).seq = 0 := rfl
@[simp] theorem State.start_tx : (State.start c ins).tx = true := rfl
@[simp] theorem State.start_inputs : (State.start c ins).inputs = ins := rfl

end starts

end Sys2Proof.Machine
end

