-- ==== Sys2Proof/Laws/Step.lean ====
section
/-! SUPPORT. What the shared operations can do, once each: selection, performing, committing, one step, one more
step of a run. -/

namespace Sys2Proof.Machine

/-! ### Selection: the words of a state that a row matches -/

theorem selects_reset (s : State) : Instr.reset.selects s.sel = s.rst := by
  unfold State.sel; generalize s.rst = a; generalize s.tick = b; generalize s.stBit = c
  generalize s.lastBit = d; generalize s.lastByte = e; revert a b c d e; decide

theorem selects_divDec (s : State) : Instr.divDec.selects s.sel = (!s.rst && !s.tick) := by
  unfold State.sel; generalize s.rst = a; generalize s.tick = b; generalize s.stBit = c
  generalize s.lastBit = d; generalize s.lastByte = e; revert a b c d e; decide

theorem selects_divReload (s : State) : Instr.divReload.selects s.sel = (!s.rst && s.tick) := by
  unfold State.sel; generalize s.rst = a; generalize s.tick = b; generalize s.stBit = c
  generalize s.lastBit = d; generalize s.lastByte = e; revert a b c d e; decide

theorem selects_seqHold (s : State) : Instr.seqHold.selects s.sel = (!s.rst && !s.tick) := selects_divDec s

theorem selects_shiftBit (s : State) :
    Instr.shiftBit.selects s.sel = (!s.rst && s.tick && !s.stBit && !s.lastBit) := by
  unfold State.sel; generalize s.rst = a; generalize s.tick = b; generalize s.stBit = c
  generalize s.lastBit = d; generalize s.lastByte = e; revert a b c d e; decide

theorem selects_shiftStop (s : State) :
    Instr.shiftStop.selects s.sel = (!s.rst && s.tick && !s.stBit && s.lastBit) := by
  unfold State.sel; generalize s.rst = a; generalize s.tick = b; generalize s.stBit = c
  generalize s.lastBit = d; generalize s.lastByte = e; revert a b c d e; decide

theorem selects_doneAdvance (s : State) :
    Instr.doneAdvance.selects s.sel = (!s.rst && s.tick && s.stBit && !s.lastBit && !s.lastByte) := by
  unfold State.sel; generalize s.rst = a; generalize s.tick = b; generalize s.stBit = c
  generalize s.lastBit = d; generalize s.lastByte = e; revert a b c d e; decide

theorem selects_doneHalt (s : State) :
    Instr.doneHalt.selects s.sel = (!s.rst && s.tick && s.stBit && !s.lastBit && s.lastByte) := by
  unfold State.sel; generalize s.rst = a; generalize s.tick = b; generalize s.stBit = c
  generalize s.lastBit = d; generalize s.lastByte = e; revert a b c d e; decide

/-! ### Performing -/

/-- Everything `perform` can do when it answers a next state. -/
theorem State.perform_eq_next_iff (s after t : State) (i : Instr) :
    s.perform i after = .next t ↔ s.Inv ∧ i.selects s.sel = true ∧ after = t := by
  unfold State.perform
  split
  · rename_i hi
    by_cases h : i.selects s.sel = true
    · simp only [h, ↓reduceIte, Host.Outcome.next.injEq, true_and]
      exact ⟨fun h => ⟨hi, h⟩, fun h => h.2⟩
    · simp [h]
  · rename_i hi
    simp [hi]

theorem State.performReset_eq_next_iff (s after t : State) :
    s.performReset after = .next t ↔ s.rst = true ∧ after = t := by
  unfold State.performReset
  rw [selects_reset]
  by_cases h : s.rst = true <;> simp [h]

/-- The engine registers as RESET writes them (R89). -/
def State.engineReset (s : State) : State :=
  ((((s.setCnt s.circuit.divisor).setIdx 0).setSt .sendWait).setSeq 0).setTx true

/-! ### One step -/

/-- The selector word of a state with the five signals given. -/
theorem State.sel_eq {s : State} {a b c d e : Bool} (ha : s.rst = a) (hb : s.tick = b) (hc : s.stBit = c)
    (hd : s.lastBit = d) (he : s.lastByte = e) :
    s.sel = BitVec.ofBool a ++ BitVec.ofBool b ++ BitVec.ofBool c ++ BitVec.ofBool d ++ BitVec.ofBool e := by
  simp [State.sel, ha, hb, hc, hd, he]

theorem decodeEdge_sel (s : State) :
    decodeEdge s.sel =
      if s.rst then .ok ⟨.reset, .reset⟩
      else if !s.tick then .ok ⟨.divDec, .seqHold⟩
      else if !s.stBit then (if s.lastBit then .ok ⟨.divReload, .shiftStop⟩ else .ok ⟨.divReload, .shiftBit⟩)
      else if s.lastBit then .error .noSequencerOperation
      else if s.lastByte then .ok ⟨.divReload, .doneHalt⟩ else .ok ⟨.divReload, .doneAdvance⟩ := by
  unfold State.sel; generalize s.rst = a; generalize s.tick = b; generalize s.stBit = c
  generalize s.lastBit = d; generalize s.lastByte = e
  cases a <;> cases b <;> cases c <;> cases d <;> cases e <;> rfl

/-- What a decoded pair can be: RESET for the whole engine at `rst = 1`, or two operations of the units, both selected
by the word. -/
theorem decodeEdge_ok_cases {s : State} {ops : EdgeOps} (h : decodeEdge s.sel = .ok ops) :
    (ops = ⟨.reset, .reset⟩ ∧ s.rst = true)
      ∨ (ops.divider ≠ .reset ∧ ops.sequencer ≠ .reset ∧ ops.divider.selects s.sel = true
          ∧ ops.sequencer.selects s.sel = true) := by
  have hr := selects_reset s
  generalize s.sel = w at *
  revert h hr
  generalize s.rst = b
  obtain ⟨d, q⟩ := ops
  revert w b
  cases d <;> cases q <;> simp only [decodeEdge] <;> decide

/-- Everything a step can do: if it answers next `t`, then one of these six cases holds. -/
theorem step_next_cases {s t : State} (h : step s = .next t) :
    (s.rst = true ∧ t = s.commit s.engineReset s.engineReset)
    ∨ (s.Inv ∧ s.rst = false ∧
      ((s.cnt ≠ 0 ∧ t = s.commit (s.setCnt (s.cnt - 1)) s)
      ∨ (s.cnt = 0 ∧ s.st = .sendWait ∧ s.idx < 9 ∧ ∃ v, s.frameBit s.idx = some v
          ∧ t = s.commit (s.setCnt s.circuit.divisor) ((s.setTx v).setIdx (s.idx + 1)))
      ∨ (s.cnt = 0 ∧ s.st = .sendWait ∧ s.idx = 9
          ∧ t = s.commit (s.setCnt s.circuit.divisor) (((s.setTx true).setIdx 0).setSt .sendDone))
      ∨ (s.cnt = 0 ∧ s.st = .sendDone ∧ s.idx = 0 ∧ s.seq < s.len - 1
          ∧ t = s.commit (s.setCnt s.circuit.divisor) ((s.setSeq (s.seq + 1)).setSt .sendWait))
      ∨ (s.cnt = 0 ∧ s.st = .sendDone ∧ s.idx = 0 ∧ s.seq = s.len - 1
          ∧ t = s.commit (s.setCnt s.circuit.divisor) s))) := by
  have commitEdge_next : ∀ {d q}, s.commitEdge d q = .next t →
      ∃ d' q', d = .next d' ∧ q = .next q' ∧ t = s.commit d' q' := by
    intro d q hq
    cases d <;> cases q <;> simp_all [State.commitEdge]
  have shift : ∀ {i : Instr} {k : Nat} {f : Bool → State} {q : State},
      (match s.frameBit k with | some v => s.perform i (f v) | none => .refused .unreachableState) = .next q →
      s.Inv ∧ i.selects s.sel = true ∧ ∃ v, s.frameBit k = some v ∧ f v = q := by
    intro i k f q hq
    cases hb : s.frameBit k with
    | none => simp [hb] at hq
    | some v =>
      simp only [hb, State.perform_eq_next_iff] at hq
      exact ⟨hq.1, hq.2.1, v, rfl, hq.2.2⟩
  unfold step at h
  split at h
  · rename_i ops hd
    obtain ⟨d', q', h1, h2, rfl⟩ := commitEdge_next h
    rw [decodeEdge_sel] at hd
    cases hr : s.rst
    · right
      simp only [hr, Bool.false_eq_true, ↓reduceIte] at hd
      cases ht : s.tick
      · have hc : s.cnt ≠ 0 := by simpa [State.tick] using ht
        simp only [ht, Bool.not_false, ↓reduceIte, Except.ok.injEq] at hd
        subst hd
        obtain ⟨hi, -, rfl⟩ := (s.perform_eq_next_iff _ _ _).1 h1
        obtain ⟨-, -, rfl⟩ := (s.perform_eq_next_iff _ _ _).1 h2
        exact ⟨hi, rfl, .inl ⟨hc, rfl⟩⟩
      · have hc : s.cnt = 0 := by simpa [State.tick] using ht
        simp only [ht, Bool.not_true, Bool.false_eq_true, ↓reduceIte] at hd
        cases hs : s.stBit
        · have hst : s.st = .sendWait := by
            cases hx : s.st <;> simp_all [State.stBit]
          simp only [hs, Bool.not_false, ↓reduceIte] at hd
          cases hl : s.lastBit
          · have hidx : s.idx ≠ 9 := by simpa [State.lastBit] using hl
            simp only [hl, Bool.false_eq_true, ↓reduceIte, Except.ok.injEq] at hd
            subst hd
            obtain ⟨hi, -, rfl⟩ := (s.perform_eq_next_iff _ _ _).1 h1
            obtain ⟨-, -, v, hv, rfl⟩ := shift h2
            have := hi.2.1
            exact ⟨hi, rfl, .inr (.inl ⟨hc, hst, by omega, v, hv, rfl⟩)⟩
          · have hidx : s.idx = 9 := by simpa [State.lastBit] using hl
            simp only [hl, ↓reduceIte, Except.ok.injEq] at hd
            subst hd
            obtain ⟨hi, -, rfl⟩ := (s.perform_eq_next_iff _ _ _).1 h1
            obtain ⟨-, -, v, hv, rfl⟩ := shift h2
            rw [hi.frameBit_stop, Option.some.injEq] at hv
            subst hv
            exact ⟨hi, rfl, .inr (.inr (.inl ⟨hc, hst, hidx, rfl⟩))⟩
        · have hst : s.st = .sendDone := by
            cases hx : s.st <;> simp_all [State.stBit]
          simp only [hs, Bool.not_true, Bool.false_eq_true, ↓reduceIte] at hd
          cases hl : s.lastBit
          · simp only [hl, Bool.false_eq_true, ↓reduceIte] at hd
            cases hy : s.lastByte
            · have hseq : s.seq ≠ s.len - 1 := by simpa [State.lastByte] using hy
              simp only [hy, Bool.false_eq_true, ↓reduceIte, Except.ok.injEq] at hd
              subst hd
              obtain ⟨hi, -, rfl⟩ := (s.perform_eq_next_iff _ _ _).1 h1
              obtain ⟨-, -, rfl⟩ := (s.perform_eq_next_iff _ _ _).1 h2
              have := hi.2.2.1
              exact ⟨hi, rfl, .inr (.inr (.inr (.inl ⟨hc, hst, hi.2.2.2 hst, by omega, rfl⟩)))⟩
            · have hseq : s.seq = s.len - 1 := by simpa [State.lastByte] using hy
              simp only [hy, ↓reduceIte, Except.ok.injEq] at hd
              subst hd
              obtain ⟨hi, -, rfl⟩ := (s.perform_eq_next_iff _ _ _).1 h1
              obtain ⟨-, -, rfl⟩ := (s.perform_eq_next_iff _ _ _).1 h2
              exact ⟨hi, rfl, .inr (.inr (.inr (.inr ⟨hc, hst, hi.2.2.2 hst, hseq, rfl⟩)))⟩
          · simp [hl] at hd
    · left
      simp only [hr, ↓reduceIte, Except.ok.injEq] at hd
      subst hd
      obtain ⟨-, rfl⟩ := (s.performReset_eq_next_iff _ _).1 h1
      obtain ⟨-, rfl⟩ := (s.performReset_eq_next_iff _ _).1 h2
      exact ⟨rfl, rfl⟩
  · cases h

/-! ### Companion counters -/

/-- Within their range the HeartbeatBlink counters fit W_HB bits. -/
theorem State.CompanionsInRange.fits {s : State} (h : s.CompanionsInRange) :
    s.hbTx < 2 ^ s.circuit.companions.hbWidth ∧ s.hbRx < 2 ^ s.circuit.companions.hbWidth := by
  have hc := s.circuit.companions.ceil_le
  have hp : 0 < 2 ^ s.circuit.companions.hbWidth := Nat.two_pow_pos _
  exact ⟨by have := h.1; omega, by have := h.2; omega⟩

/-- One edge keeps a HeartbeatBlink counter within `0 .. HB_CEIL`. -/
theorem nextHb_le {hb ceil : Nat} (h : hb ≤ ceil) (rst mon : Bool) : nextHb rst mon ceil hb ≤ ceil := by
  unfold nextHb
  split_ifs <;> omega

/-! ### A run -/

/-- A run of one more edge is a step and then the run. -/
theorem run_succ {s t : State} (n : Nat) (h : step s = .next t) : run (n + 1) s = run n t := by
  simp only [run, h]

/-- Everything a run of one more edge can do. -/
theorem run_succ_next {s u : State} {n : Nat} (h : run (n + 1) s = .next u) :
    ∃ t, step s = .next t ∧ run n t = .next u := by
  simp only [run] at h
  cases hs : step s with
  | next t => exact ⟨t, rfl, by simpa [hs] using h⟩
  | fault r => cases r
  | refused r => simp [hs] at h

/-- A run of `m + n` edges is a run of `m` edges and then one of `n`. -/
theorem run_add {s t : State} (m n : Nat) (h : run m s = .next t) : run (m + n) s = run n t := by
  induction m generalizing s with
  | zero =>
    cases h
    rw [Nat.zero_add]
  | succ m ih =>
    obtain ⟨u, h1, h2⟩ := run_succ_next h
    rw [show m + 1 + n = m + n + 1 by omega, run_succ (m + n) h1]
    exact ih h2

/-- The host's run of one more edge, where the step answers a next state. -/
theorem coreRun_next (M : Host.Core) {s t : M.State} (n : Nat) (h : M.step s = .next t) :
    M.run (n + 1) s = M.run n t := by
  rw [Host.Core.run, h]

/-- The host's run of one more edge, where the step refuses. -/
theorem coreRun_refused (M : Host.Core) {s : M.State} {r : M.Refusal} (n : Nat) (h : M.step s = .refused r) :
    M.run (n + 1) s = .refused r := by
  rw [Host.Core.run, h]

/-- The model's run is the host's run of its core. -/
theorem run_eq_core (n : Nat) : ∀ s : State, run n s = Host.Core.run core n s := by
  induction n with
  | zero => intro s; rfl
  | succ n ih =>
    intro s
    cases h : step s with
    | next t => exact (run_succ n h).trans ((ih t).trans (coreRun_next core n h).symm)
    | fault r => cases r
    | refused r => exact (by simp only [run, h] : run (n + 1) s = .refused r).trans (coreRun_refused core n h).symm

end Sys2Proof.Machine
end

