-- ==== Sys2Proof/Tests/Slice0.lean ====
section
/-! SUPPORT. The model's own tests, from the spec's vectors (95_test_vectors.md, named at each), the ill-formed terms
the checks refuse, and a witness for the hypotheses of each statement. -/

namespace Sys2Proof.Tests

open Sys2Proof Sys2Proof.Machine

/-! ### Small circuits and states -/

/-- `ENGINE(N, BUF)` with companion parameters W_HB = 4, HB_CEIL = 15, the transmit indicator on the line at 0. -/
def engine (n : Nat) (bs : List Byte) (hn : 1 ≤ n) (hb : 1 ≤ (Memory.ofBytes bs).length) : Circuit where
  divisor := n
  buf := Memory.ofBytes bs
  companions := { Companions.example with monTx := .lineAt false }
  divisor_pos := hn
  buf_wf := Memory.ofBytes_wf _
  buf_nonempty := hb

def e1 : Circuit := engine 1 [0xA5] (by decide) (by decide)
def e2 : Circuit := engine 2 [0x01, 0x80] (by decide) (by decide)
def e3 : Circuit := engine 3 [0x55, 0xAA, 0x00] (by decide) (by decide)

/-- A state of circuit `c` with the engine registers given and no reset to come. -/
def at' (c : Circuit) (cnt idx : Nat) (st : ProtocolState) (seq : Nat) (tx : Bool) : State :=
  { State.start c [] with cnt := cnt, idx := idx, st := st, seq := seq, tx := tx }

/-- The same state with `rst = 1` in this cycle. -/
def resetting (s : State) : State := { s with inputs := [{ Inputs.idle with rst := true }] }

def nextOf : Host.Outcome State Fault Refusal → Option State
  | .next s => some s
  | .fault _ => none
  | .refused _ => none

def refusalOf : Host.Outcome State Fault Refusal → Option Refusal
  | .next _ => none
  | .fault _ => none
  | .refused r => some r

/-- The five engine registers after an outcome. -/
def regs (o : Host.Outcome State Fault Refusal) : Option (Nat × Nat × ProtocolState × Nat × Bool) :=
  (nextOf o).map fun t => (t.cnt, t.idx, t.st, t.seq, t.tx)

/-! ### Decoding: words written out from the tables of R44 and R45 -/

theorem test_decode_reset : decodeTableWord 8 0b10000 = some .reset := by decide
theorem test_decode_divDec : decodeDivider 0b00011 = some .divDec := by decide
theorem test_decode_divReload : decodeDivider 0b01010 = some .divReload := by decide
theorem test_decode_seqHold : decodeTableWord 8 0b00101 = some .seqHold := by decide
theorem test_decode_shiftBit : decodeTableWord 8 0b01001 = some .shiftBit := by decide
theorem test_decode_shiftStop : decodeTableWord 8 0b01011 = some .shiftStop := by decide
theorem test_decode_doneAdvance : decodeTableWord 8 0b01100 = some .doneAdvance := by decide
theorem test_decode_doneHalt : decodeTableWord 8 0b01101 = some .doneHalt := by decide
/-- R45, R47: `0111x` has no sequencer operation. -/
theorem test_decode_refuses_doneAtLastBit : decodeEdge 0b01111 = .error .noSequencerOperation := by decide
theorem test_decode_refuses_wideByte : decode [0b00100000] = .error .notASelectorWord := by decide
theorem test_decode_refuses_noByte : decode [] = .error .noByte := by decide

/-! ### Well-formedness: an ill-formed term for each check -/

theorem test_wf_accepts : (EdgeOps.mk .divReload .shiftBit).wf = true := by decide
theorem test_wf_refuses_divider : (EdgeOps.mk .shiftBit .shiftBit).wf = false := by decide
theorem test_wf_refuses_sequencer : (EdgeOps.mk .divReload .divReload).wf = false := by decide
theorem test_wf_refuses_half_reset : (EdgeOps.mk .reset .shiftBit).wf = false := by decide
theorem test_wf_refuses_tick_mismatch : (EdgeOps.mk .divDec .shiftBit).wf = false := by decide
theorem test_memory_wf_refuses_order : ¬ Memory.wf [(1, 0x68), (0, 0x65)] := by decide
theorem test_memory_wf_refuses_gap : ¬ Memory.wf [(0, 0x68), (2, 0x65)] := by decide

/-! ### Construction: section 2.1 -/

/-- Parameters with the two rates, the 1-byte buffer and the example companions. -/
def rates (clock : DrivingClock) (baud : Rat) (buf : List Int) : Params := ⟨.rates clock baud, buf, .example⟩

theorem test_divisor_12MHz : roundedDivisor 12000000 115200 = 104 := by decide +kernel
theorem test_divisor_48MHz : roundedDivisor 48000000 115200 = 417 := by decide +kernel
theorem test_divisor_tie : roundedDivisor 5 2 = 3 := by decide +kernel
theorem test_divisor_83ns : divisorOf (.rates (.periodNs 83) 115200) = 105 := by decide +kernel
theorem test_divisor_250over3ns : divisorOf (.rates (.periodNs (250 / 3)) 115200) = 104 := by decide +kernel
theorem test_config_ce1 : failingCodes (rates (.periodNs 0) 115200 [0x68]) = [.ce1] := by decide +kernel
theorem test_config_ce1_ce3 : failingCodes (rates (.periodNs (-10)) 115200 [0x68]) = [.ce1, .ce3] := by
  decide +kernel
theorem test_config_ce2_ce4 : failingCodes (rates (.frequencyHz 12000000) 0 []) = [.ce2, .ce4] := by decide +kernel
theorem test_config_ce3 : failingCodes (rates (.frequencyHz 12000000) 12000001 [0x68]) = [.ce3] := by
  decide +kernel
theorem test_config_ce5 : failingCodes (rates (.frequencyHz 12000000) 115200 [0x68, 256]) = [.ce5] := by
  decide +kernel
theorem test_config_ce6 : failingCodes ⟨.direct 0, [0x68], .example⟩ = [.ce6] := by decide
/-- Row F_DRV=115200 (N = 1) of section 2.1, rate and error -50 %, and R75's rate for N = 104. -/
theorem test_actual_rates :
    actualBitRate 115200 e1 = 57600 ∧ actualBitRate 12000000 .example = 12000000 / 105
      ∧ bitRateRatio 115200 115200 e1 = 1 / 2 := by decide +kernel
theorem test_widths_cnt : (ceilLog2 2, ceilLog2 8, ceilLog2 9, ceilLog2 105, ceilLog2 256) = (1, 3, 4, 7, 8) := by
  decide
theorem test_widths_seq : (e1.seqWidth, e2.seqWidth, e3.seqWidth) = (1, 1, 2) := by decide

/-! ### Frames: section 2.3 -/

theorem test_frame_68 : frame 0x68 = 0x2D0 := by decide
theorem test_frame_A5 : frame 0xA5 = 0x34A := by decide

/-! ### One edge of each operation: sections 2.2 to 2.6 -/

theorem test_divDec : (nextOf (exec .divDec (at' e3 1 0 .sendWait 0 true))).map (·.cnt) = some 0 := by decide
theorem test_divReload : (nextOf (exec .divReload (at' e3 0 0 .sendWait 0 true))).map (·.cnt) = some 3 := by decide
/-- Pre idx 8, b[7] = 1. -/
theorem test_shiftBit : regs (step (at' e1 0 8 .sendWait 0 false)) = some (1, 9, .sendWait, 0, true) := by decide
/-- Pre idx 5, b[4] = 0. -/
theorem test_shiftBit_low : regs (step (at' e1 0 5 .sendWait 0 false)) = some (1, 6, .sendWait, 0, false) := by
  decide
theorem test_shiftStop : regs (step (at' e1 0 9 .sendWait 0 true)) = some (1, 0, .sendDone, 0, true) := by decide
theorem test_doneAdvance : regs (step (at' e3 0 0 .sendDone 1 true)) = some (3, 0, .sendWait, 2, true) := by decide
theorem test_doneHalt : regs (step (at' e3 0 0 .sendDone 2 true)) = some (3, 0, .sendDone, 2, true) := by decide
theorem test_seqHold : regs (step (at' e3 2 4 .sendWait 1 true)) = some (1, 4, .sendWait, 1, true) := by decide
/-- Section 2.6, second row: reset wins over the tick, no bit is driven. -/
theorem test_reset_wins_over_tick :
    regs (step (resetting (at' e1 0 1 .sendWait 0 false))) = some (1, 0, .sendWait, 0, true) := by decide
/-- Section 2.6, third row: terminal state and tick. -/
theorem test_reset_from_terminal :
    regs (step (resetting (at' e3 0 0 .sendDone 2 true))) = some (3, 0, .sendWait, 0, true) := by decide
/-- R47: `SEND_DONE` with `idx = 9` is refused. -/
theorem test_step_refuses_broken :
    refusalOf (step (at' e3 0 9 .sendDone 1 true)) = some .unreachableState := by decide
theorem test_exec_refuses_unselected :
    refusalOf (exec .shiftStop (at' e3 0 8 .sendWait 1 true)) = some .notSelected := by decide
/-- SV2: the first edge after reset of the example engine counts 104 down to 103. -/
theorem test_first_edge : regs (step State.reset) = some (103, 0, .sendWait, 0, true) := by decide
theorem test_powerOn : powerOn ⟨.direct 0, [], .example⟩ [] = .error [.ce4, .ce6] := by rfl

/-! ### Companion blocks: section 2.7 -/

/-- Cycle 1 to 2 of the Synchronizer vector: `rx_async = 0` sampled after reset. -/
theorem test_synchronizer :
    (nextOf (step { State.start e1 [{ Inputs.idle with rxAsync := false }] with s1 := true, s2 := true })).map
      (fun t => (t.s1, t.s2)) = some (false, true) := by decide
theorem test_heartbeat_reload_wins : nextHb false true 15 13 = 15 := by decide
theorem test_heartbeat_counts : (nextHb false false 15 8, nextHb false false 15 0) = (7, 0) := by decide
theorem test_led_threshold : (led .example 8, led .example 7) = (true, false) := by decide

/-! ### Witnesses: states and operands that meet the hypotheses of the statements -/

/-- Reset inputs that never come. -/
theorem noReset_start (c : Circuit) (n : Nat) : (State.start c []).NoReset n := fun _ _ => rfl

theorem witness_EncodedPairsDecodeBack :
    (EdgeOps.mk .reset .reset).wf = true ∧ (EdgeOps.mk .divReload .doneHalt).wf = true
      ∧ (∃ p, decodeEdge 0b11111 = .ok p) ∧ 32 ≤ (32 : Byte).toNat := ⟨by decide, by decide, ⟨_, rfl⟩, by decide⟩

theorem witness_FetchWordIsSelected :
    31 < 32 ∧ State.reset.Inv ∧ (BitVec.ofNat 5 0b11101 &&& 0b00110 : Sel) ≠ 0b00110 := by decide

theorem witness_DivDecCountsDown :
    (at' e1 1 9 .sendWait 0 true).Inv ∧ (at' e1 1 9 .sendWait 0 true).sel &&& 0b11000 = 0b00000
      ∧ (at' e1 1 9 .sendWait 0 true).cnt = 1 ∧ e1.divisor = 1 := by decide

theorem witness_DivReloadWritesDivisor :
    (at' e3 0 0 .sendDone 2 true).Inv ∧ (at' e3 0 0 .sendDone 2 true).sel &&& 0b11000 = 0b01000 := by decide

theorem witness_ShiftBitDrivesFrameBit_start :
    (at' e3 0 0 .sendWait 2 true).Inv ∧ (at' e3 0 0 .sendWait 2 true).sel &&& 0b11110 = 0b01000
      ∧ (at' e3 0 0 .sendWait 2 true).idx = 0 := by decide

theorem witness_ShiftBitDrivesFrameBit_data :
    (at' e3 0 8 .sendWait 0 true).Inv ∧ (at' e3 0 8 .sendWait 0 true).sel &&& 0b11110 = 0b01000
      ∧ 1 ≤ (at' e3 0 8 .sendWait 0 true).idx := by decide

theorem witness_ShiftStopDrivesStopBit :
    (at' e3 0 9 .sendWait 2 false).Inv ∧ (at' e3 0 9 .sendWait 2 false).sel &&& 0b11110 = 0b01010 := by decide

theorem witness_DoneAdvanceMovesToNextByte :
    (at' e3 0 0 .sendDone 1 true).Inv ∧ (at' e3 0 0 .sendDone 1 true).sel = 0b01100 := by decide

theorem witness_DoneHaltWritesNothing :
    (at' e3 0 0 .sendDone 2 true).Inv ∧ (at' e3 0 0 .sendDone 2 true).sel = 0b01101 := by decide

theorem witness_SeqHoldWritesNothing :
    (at' e3 3 0 .sendDone 2 true).Inv ∧ (at' e3 3 0 .sendDone 2 true).sel &&& 0b11000 = 0b00000 := by decide

/-- Also in a state that breaks `Inv`. -/
theorem witness_ResetWritesResetValues :
    (resetting (at' e3 9 15 .sendDone 7 false)).sel &&& 0b10000 = 0b10000
      ∧ ¬ (resetting (at' e3 9 15 .sendDone 7 false)).Inv := by decide

/-- A state outside `Inv` that selects SHIFT_BIT and not RESET, and states under `Inv` where an operation is selected
and where it is not. -/
theorem witness_OperationsRunOrAreRefused :
    ¬ (at' e3 0 10 .sendWait 0 true).Inv ∧ Instr.shiftBit.selects (at' e3 0 10 .sendWait 0 true).sel = true
      ∧ (at' e3 0 10 .sendWait 0 true).rst = false ∧ (at' e3 0 8 .sendWait 0 true).Inv
      ∧ Instr.shiftBit.selects (at' e3 0 8 .sendWait 0 true).sel = true
      ∧ Instr.shiftStop.selects (at' e3 0 8 .sendWait 0 true).sel = false
      ∧ Instr.reset.selects (at' e3 0 8 .sendWait 0 true).sel = false := by decide

theorem witness_OperationsWriteOnlyTheirRegisters :
    (∃ t, exec .divDec (at' e3 1 0 .sendWait 0 true) = .next t)
      ∧ (∃ t, exec .shiftBit (at' e3 0 8 .sendWait 0 true) = .next t)
      ∧ (∃ t, exec .doneAdvance (at' e3 0 0 .sendDone 1 true) = .next t) := ⟨⟨_, rfl⟩, ⟨_, rfl⟩, ⟨_, rfl⟩⟩

theorem witness_StepRunsDecodedOperations_runs :
    ∃ ops d q, decodeEdge (at' e3 0 8 .sendWait 0 true).sel = .ok ops
      ∧ exec ops.divider (at' e3 0 8 .sendWait 0 true) = .next d
      ∧ exec ops.sequencer (at' e3 0 8 .sendWait 0 true) = .next q :=
  ⟨⟨.divReload, .shiftBit⟩, _, _, rfl, rfl, rfl⟩

/-- The clauses for a refused divider operation, and the one for a word without a sequencer operation. -/
theorem witness_StepRunsDecodedOperations_stops :
    (∃ ops r, decodeEdge (at' e3 4 0 .sendWait 0 true).sel = .ok ops
      ∧ exec ops.divider (at' e3 4 0 .sendWait 0 true) = .refused r)
      ∧ ∃ e, decodeEdge (at' e3 0 9 .sendDone 0 true).sel = .error e :=
  ⟨⟨⟨.divDec, .seqHold⟩, _, rfl, rfl⟩, ⟨_, rfl⟩⟩

theorem witness_StepIsCompositeEdge :
    (resetting (at' e3 0 9 .sendWait 0 true)).rst = true
      ∧ (at' e3 3 9 .sendWait 2 true).Inv ∧ (at' e3 3 9 .sendWait 2 true).cnt ≠ 0
      ∧ (at' e3 0 8 .sendWait 2 true).Inv ∧ (at' e3 0 9 .sendWait 2 true).Inv
      ∧ (at' e3 0 0 .sendDone 1 true).Inv ∧ (at' e3 0 0 .sendDone 1 true).seq ≠ (at' e3 0 0 .sendDone 1 true).len - 1
      ∧ (at' e3 0 0 .sendDone 2 true).Inv ∧ (at' e3 0 0 .sendDone 2 true).seq = (at' e3 0 0 .sendDone 2 true).len - 1
      ∧ (at' e3 0 0 .sendDone 2 true).rst = false := by decide

theorem witness_StepRefusesUnreachableStates :
    (at' e3 4 0 .sendWait 0 true).rst = false ∧ ¬ (at' e3 4 0 .sendWait 0 true).Inv := by decide

theorem witness_NoRuntimeError : (at' e3 0 0 .sendDone 2 true).Inv := by decide

theorem witness_EveryStepKeepsInv :
    (at' e3 0 9 .sendWait 2 false).Inv ∧ ∃ t, step (at' e3 0 9 .sendWait 2 false) = .next t := ⟨by decide, ⟨_, rfl⟩⟩

/-- 0xAA has b[6] = 0 and b[7] = 1: frame bit 8 is driven last when idx = 9. -/
theorem witness_EveryStepKeepsLineOnFrame :
    (at' e3 0 9 .sendWait 1 true).LineInv ∧ ∃ t, step (at' e3 0 9 .sendWait 1 true) = .next t :=
  ⟨by decide, ⟨_, rfl⟩⟩

theorem witness_EveryStepKeepsHeartbeatRange :
    State.CompanionsInRange { State.start e3 [] with hbTx := 15, hbRx := 15 }
      ∧ ∃ t, step { State.start e3 [] with hbTx := 15, hbRx := 15 } = .next t := ⟨by decide, ⟨_, rfl⟩⟩

theorem witness_RegistersFitTheirWidths : (at' e3 3 9 .sendWait 2 true).Inv := by decide

theorem witness_BufferReadsAreConstant :
    2 < (at' e3 3 9 .sendWait 2 true).len ∧ ∃ t, run 2 (at' e3 3 9 .sendWait 2 true) = .next t :=
  ⟨by decide, ⟨_, rfl⟩⟩

theorem witness_DividerIsFreeRunning :
    (at' e3 0 0 .sendDone 2 true).Inv ∧ (at' e3 0 0 .sendDone 2 true).Terminal
      ∧ (at' e3 0 0 .sendDone 2 true).rst = false
      ∧ (at' e3 0 0 .sendDone 2 true).cnt = (at' e3 0 4 .sendWait 0 false).cnt
      ∧ (∃ t, step (at' e3 0 0 .sendDone 2 true) = .next t)
      ∧ ∃ t, step (at' e3 0 4 .sendWait 0 false) = .next t :=
  ⟨by decide, by decide, by decide, rfl, ⟨_, rfl⟩, ⟨_, rfl⟩⟩

theorem witness_TicksAreEveryBitPeriod :
    (State.start e1 []).Inv ∧ (State.start e1 []).NoReset 3 ∧ 3 = (State.start e1 []).cnt + 1 * e1.bitPeriod := by
  decide

theorem witness_DividerPhaseIsOnlyTiming :
    (at' e3 3 4 .sendWait 1 true).Inv ∧ 0 ≤ (at' e3 3 4 .sendWait 1 true).cnt
      ∧ (at' e3 3 4 .sendWait 1 true).NoReset 3 := by decide

theorem witness_ByteIsStableDuringFrame :
    (∃ t, step (at' e3 0 4 .sendWait 1 true) = .next t)
      ∧ (∃ t, step (at' e3 0 0 .sendDone 1 true) = .next t ∧ t.seq ≠ (at' e3 0 0 .sendDone 1 true).seq)
      ∧ (at' e3 0 0 .sendDone 1 true).rst = false := ⟨⟨_, rfl⟩, ⟨_, rfl, by decide⟩, rfl⟩

/-- Before the first tick (`n = cnt`), the first bit (`r = 0`, its first cycle) and the stop bit (`r = 9`, its last
cycle of one bit period). -/
theorem witness_FrameGoesOutBitByBit :
    (State.start e1 []).Inv ∧ (State.start e1 []).st = .sendWait ∧ (State.start e1 []).idx = 0
      ∧ (State.start e1 []).memRead 0 = some 0xA5 ∧ (State.start e1 []).NoReset 21
      ∧ 1 ≤ (State.start e1 []).cnt
      ∧ (State.start e1 []).cnt + 0 * e1.bitPeriod < 2 ∧ 2 ≤ (State.start e1 []).cnt + (0 + 1) * e1.bitPeriod
      ∧ (State.start e1 []).cnt + 9 * e1.bitPeriod < 21
      ∧ 21 ≤ (State.start e1 []).cnt + (9 + 1) * e1.bitPeriod := by decide

theorem witness_InterFrameGapIsOneBitPeriod :
    (at' e2 0 9 .sendWait 0 false).Inv ∧ (at' e2 0 9 .sendWait 0 false).sel &&& 0b11110 = 0b01010
      ∧ (at' e2 0 9 .sendWait 0 false).seq < (at' e2 0 9 .sendWait 0 false).len - 1
      ∧ (at' e2 0 9 .sendWait 0 false).NoReset 7 ∧ 6 ≤ 2 * e2.bitPeriod ∧ 7 = 2 * e2.bitPeriod + 1 := by decide

theorem witness_LineHoldsForBitPeriod :
    (∃ t, step (at' e3 0 0 .sendWait 1 true) = .next t ∧ t.tx ≠ (at' e3 0 0 .sendWait 1 true).tx ∧ t.NoReset 3)
      ∧ ∃ t, step (resetting (at' e3 2 4 .sendWait 1 false)) = .next t ∧ t.tx ≠ false :=
  ⟨⟨_, rfl, by decide, by decide⟩, ⟨_, rfl, by decide⟩⟩

theorem witness_SequencerIndexCountsUp :
    (at' e3 0 0 .sendDone 1 true).Inv ∧ (∃ t, step (at' e3 0 0 .sendDone 1 true) = .next t)
      ∧ (at' e3 0 0 .sendDone 1 true).NoReset (1 + 1) ∧ (∃ t, run 1 (at' e3 0 0 .sendDone 1 true) = .next t)
      ∧ (∀ n, (State.start e3 []).NoReset n) ∧ 2 < e3.length :=
  ⟨by decide, ⟨_, rfl⟩, by decide, ⟨_, rfl⟩, noReset_start e3, by decide⟩

theorem witness_TerminalStateIsKept :
    (at' e3 0 0 .sendDone 2 true).LineInv ∧ (at' e3 0 0 .sendDone 2 true).Terminal
      ∧ (at' e3 0 0 .sendDone 2 true).NoReset (4 + 1) := by decide

/-- The schedules' clauses at boundary cycles of `ENGINE(N=2, BUF=[0x01, 0x80])`: the idle line before the first bit,
the last data bit of the last byte, the inter-frame gap's last cycle, and the terminal cycle (P2). -/
theorem witness_LineScheduleFromReset :
    (∀ n, (State.start e2 []).NoReset n) ∧ 2 < e2.bitPeriod
      ∧ (1 < e2.length ∧ e2.buf.read 1 = some 0x80 ∧ (11 * 1 + 8 + 1) * e2.bitPeriod ≤ 62
          ∧ 62 < (11 * 1 + 8 + 2) * e2.bitPeriod)
      ∧ (0 < e2.length - 1 ∧ (11 * 0 + 10) * e2.bitPeriod ≤ 35 ∧ 35 < (11 * 0 + 12) * e2.bitPeriod)
      ∧ (11 * (e2.length - 1) + 10) * e2.bitPeriod ≤ 63 :=
  ⟨noReset_start e2, by decide, by decide, by decide, by decide⟩

theorem witness_ProtocolScheduleFromReset :
    (∀ n, (State.start e2 []).NoReset n)
      ∧ (0 < e2.length - 1 ∧ (11 * 0 + 10) * e2.bitPeriod ≤ 32 ∧ 32 < (11 * 0 + 11) * e2.bitPeriod)
      ∧ (0 < e2.length ∧ 11 * 0 * e2.bitPeriod ≤ 32 ∧ 32 < 11 * (0 + 1) * e2.bitPeriod)
      ∧ (1 < e2.length ∧ 11 * 1 * e2.bitPeriod ≤ 33)
      ∧ (11 * e2.length - 1) * e2.bitPeriod = 63 :=
  ⟨noReset_start e2, by decide, by decide, by decide, by decide⟩

theorem witness_ResetHeldKeepsResetState :
    State.ResetHeld { at' e3 9 15 .sendDone 7 false with
      inputs := [{ Inputs.idle with rst := true }, { Inputs.idle with rst := true }] } 2 := by decide

theorem witness_ResetCutsFrameAndRestarts :
    (resetting (at' e2 1 4 .sendWait 1 false)).rst = true
      ∧ (∀ k, k < 4 → 1 ≤ k → ((resetting (at' e2 1 4 .sendWait 1 false)).inputAt k).rst = false)
      ∧ 3 ≤ e2.bitPeriod ∧ 4 = e2.bitPeriod + 1 := by decide

theorem witness_NoRetransmissionWithoutReset :
    (at' e3 0 0 .sendDone 2 true).LineInv ∧ (at' e3 0 0 .sendDone 2 true).Terminal
      ∧ (at' e3 0 0 .sendDone 2 true).NoReset 4 ∧ (resetting (at' e3 0 0 .sendDone 2 true)).rst = true := by decide

/-- Two states that agree on the engine and differ in the companion blocks and their inputs. -/
theorem witness_EngineDependsOnResetsAlone :
    (at' e3 0 8 .sendWait 0 true).Inv
      ∧ (at' e3 0 8 .sendWait 0 true).SameEngine
          { at' e3 0 8 .sendWait 0 true with s1 := false, hbTx := 7, inputs := [{ Inputs.idle with rxAsync := false }] }
      ∧ (at' e3 0 8 .sendWait 0 true).SameResets
          { at' e3 0 8 .sendWait 0 true with s1 := false, hbTx := 7, inputs := [{ Inputs.idle with rxAsync := false }] } 2
      ∧ ∃ t, run 2 (at' e3 0 8 .sendWait 0 true) = .next t := ⟨by decide, by decide, by decide, ⟨_, rfl⟩⟩

theorem witness_SynchronizerShiftsInput :
    (∃ t, step (at' e3 0 8 .sendWait 0 true) = .next t) ∧ (at' e3 0 8 .sendWait 0 true).rst = false
      ∧ ∃ t, step (resetting (at' e3 0 8 .sendWait 0 true)) = .next t := ⟨⟨_, rfl⟩, rfl, ⟨_, rfl⟩⟩

theorem witness_SynchronizerLatencyIsTwoEdges :
    (at' e3 0 8 .sendWait 0 true).Inv ∧ (at' e3 0 8 .sendWait 0 true).NoReset 2
      ∧ (resetting (at' e3 0 8 .sendWait 0 true)).rst = true
      ∧ ((resetting (at' e3 0 8 .sendWait 0 true)).inputAt 1).rst = false := by decide

/-- The transmit indicator monitors the line at 0 in these circuits; the receive one an input. -/
theorem witness_HeartbeatCountersReloadAndCount :
    (at' e3 1 8 .sendWait 0 false).monTx = true ∧ (at' e3 1 8 .sendWait 0 true).monTx = false
      ∧ State.monRx { State.start e3 [{ Inputs.idle with monRx := true }] with cnt := 1 } = true
      ∧ (at' e3 1 8 .sendWait 0 true).monRx = false
      ∧ (∃ t, step (at' e3 1 8 .sendWait 0 false) = .next t)
      ∧ ∃ t, step (resetting (at' e3 1 8 .sendWait 0 true)) = .next t :=
  ⟨by decide, by decide, by decide, by decide, ⟨_, rfl⟩, ⟨_, rfl⟩⟩

theorem witness_IndicatorThresholdIsHalfRange :
    State.CompanionsInRange { State.start e3 [] with hbTx := 8, hbRx := 7 } := by decide

/-- The line at 0 in this cycle, and from the next edge on at 1 (frame bit 8 of 0xAA, then the stop bit). -/
theorem witness_IndicatorStaysLitForDuration :
    (at' e3 0 8 .sendWait 1 false).Inv ∧ (at' e3 0 8 .sendWait 1 false).NoReset (1 + 1)
      ∧ (at' e3 0 8 .sendWait 1 false).monTx = true
      ∧ (∀ k u, 1 ≤ k → k ≤ 1 → run k (at' e3 0 8 .sendWait 1 false) = .next u → u.monTx = false)
      ∧ State.monRx (State.start e3 [{ Inputs.idle with monRx := true }]) = true
      ∧ (∀ k u, 1 ≤ k → k ≤ 1 → run k (State.start e3 [{ Inputs.idle with monRx := true }]) = .next u →
          u.monRx = false) := by
  refine ⟨by decide, by decide, by decide, ?_, by decide, ?_⟩
  · intro k u h1 h2 h
    obtain rfl : k = 1 := by omega
    cases h
    rfl
  · intro k u h1 h2 h
    obtain rfl : k = 1 := by omega
    cases h
    rfl

theorem witness_ConstructionChecks :
    failingCodes (rates (.frequencyHz 12000000) 0 []) ≠ [] ∧ failingCodes ⟨.direct 1, [255], .example⟩ = [] := by
  decide +kernel

theorem witness_ConstructedCircuitIsAsGiven :
    (∃ c, construct ⟨.direct 1, [0, 255], .example⟩ = .ok c) ∧ [(0 : Int), 255][1]? = some 255
      ∧ DrivingClock.frequency (.periodNs 40) = some (10 ^ 9 / 40)
      ∧ ∃ c, construct (rates (.periodNs 40) 115200 [0x68]) = .ok c :=
  ⟨⟨_, rfl⟩, rfl, by decide +kernel, ⟨_, dif_pos (by decide +kernel)⟩⟩

theorem witness_PeriodIsUsedExactly : (83 : Rat) ≠ 0 := by decide +kernel

theorem witness_ActualRates : (115200 : Rat) ≠ 0 := by decide +kernel

end Sys2Proof.Tests
end

section
/-! PROOFS. The decode tables of 30_encoding.md as iffs: in a table whose rows do not overlap, the decode finds a row
exactly at the words that match it. -/

namespace Sys2Proof.Proofs

theorem selects_iff (i : Instr) (w : Sel) : i.selects w = true ↔ w &&& i.mask = i.pattern := by
  simp [Instr.selects]

/-- A search where no two entries satisfy `p` finds an entry exactly when that entry satisfies `p`. -/
theorem find?_eq_some_iff_of_unique {α : Type} {p : α → Bool} {l : List α} {a : α} (ha : a ∈ l)
    (unique : ∀ x ∈ l, ∀ y ∈ l, p x = true → p y = true → x = y) : l.find? p = some a ↔ p a = true := by
  constructor
  · exact List.find?_some
  · intro hpa
    obtain ⟨b, hb⟩ := Option.isSome_iff_exists.mp (List.find?_isSome.mpr ⟨a, ha, hpa⟩)
    rw [hb, unique b (List.mem_of_find?_eq_some hb) a ha (List.find?_some hb) hpa]

/-! ### The tables: rows do not overlap, and which words they cover (R44, R45) -/

theorem dividerTable_disjoint : ∀ w : Sel, ∀ i ∈ dividerTable, ∀ j ∈ dividerTable,
    i.selects w = true → j.selects w = true → i = j := by decide

theorem sequencerTable_disjoint : ∀ w : Sel, ∀ i ∈ sequencerTable, ∀ j ∈ sequencerTable,
    i.selects w = true → j.selects w = true → i = j := by decide

theorem dividerTable_covers : ∀ w : Sel, ∃ i ∈ dividerTable, i.selects w = true := by decide

theorem sequencerTable_misses_iff : ∀ w : Sel,
    (∀ i ∈ sequencerTable, ¬ i.selects w = true) ↔ w &&& 0b11110 = 0b01110 := by decide

/-! ### The decodes -/

theorem decodeDivider_eq_some_iff {i : Instr} (hi : i ∈ dividerTable) (w : Sel) :
    decodeDivider w = some i ↔ w &&& i.mask = i.pattern :=
  (find?_eq_some_iff_of_unique hi (dividerTable_disjoint w)).trans (selects_iff i w)

theorem decodeSequencer_eq_some_iff {i : Instr} (hi : i ∈ sequencerTable) (w : Sel) :
    decodeSequencer w = some i ↔ w &&& i.mask = i.pattern :=
  (find?_eq_some_iff_of_unique hi (sequencerTable_disjoint w)).trans (selects_iff i w)

theorem decodeDivider_ne_none (w : Sel) : decodeDivider w ≠ none :=
  Option.isSome_iff_ne_none.mp (List.find?_isSome.mpr (dividerTable_covers w))

theorem decodeSequencer_eq_none_iff (w : Sel) : decodeSequencer w = none ↔ w &&& 0b11110 = 0b01110 :=
  List.find?_eq_none.trans (sequencerTable_misses_iff w)

/-- Settles O1: the rows of each table do not overlap, so each is decoded exactly at the words that match it; the
divider's rows cover every word, and the sequencer's miss `0111x` alone. -/
theorem decodeTablesAsWritten : Obligations.DecodeTablesAsWritten := by
  intro w
  exact ⟨decodeDivider_eq_some_iff (i := .reset) (by decide) w,
    decodeDivider_eq_some_iff (i := .divDec) (by decide) w,
    decodeDivider_eq_some_iff (i := .divReload) (by decide) w,
    decodeDivider_ne_none w,
    decodeSequencer_eq_some_iff (i := .reset) (by decide) w,
    decodeSequencer_eq_some_iff (i := .seqHold) (by decide) w,
    decodeSequencer_eq_some_iff (i := .shiftBit) (by decide) w,
    decodeSequencer_eq_some_iff (i := .shiftStop) (by decide) w,
    decodeSequencer_eq_some_iff (i := .doneAdvance) (by decide) w,
    decodeSequencer_eq_some_iff (i := .doneHalt) (by decide) w,
    decodeSequencer_eq_none_iff w⟩

end Sys2Proof.Proofs
end

section
/-! PROOFS. The ClockDivider of 40_clock_divider.md: which divider operation a state selects, that a selected
operation answers a next state under `Inv` and so the whole edge completes, and what one edge does to `cnt`. -/

namespace Sys2Proof.Proofs

open Machine

/-! ### Which divider operation a state selects (R44) -/

@[simp] theorem tick_eq_true_iff (s : State) : s.tick = true ↔ s.cnt = 0 := by
  simp [State.tick]

@[simp] theorem tick_eq_false_iff (s : State) : s.tick = false ↔ s.cnt ≠ 0 := by
  simp [State.tick]

theorem selects_divDec_iff (s : State) : Instr.divDec.selects s.sel = true ↔ s.rst = false ∧ s.cnt ≠ 0 := by
  simp [selects_divDec]

theorem selects_divReload_iff (s : State) : Instr.divReload.selects s.sel = true ↔ s.rst = false ∧ s.cnt = 0 := by
  simp [selects_divReload]

theorem selects_seqHold_iff (s : State) : Instr.seqHold.selects s.sel = true ↔ s.rst = false ∧ s.cnt ≠ 0 :=
  selects_divDec_iff s

/-! ### A decoded operation is selected, and under `Inv` there is one for each unit -/

theorem decodeDivider_selects {w : Sel} {i : Instr} (h : decodeDivider w = some i) : i.selects w = true :=
  List.find?_some (p := fun j : Instr => j.selects w) h

theorem decodeSequencer_selects {w : Sel} {i : Instr} (h : decodeSequencer w = some i) : i.selects w = true :=
  List.find?_some (p := fun j : Instr => j.selects w) h

/-- The word without a sequencer operation says SEND_DONE with `idx = 9` (R45, R47). -/
theorem sendDone_and_idx_of_sel_0111x {s : State} (h : s.sel &&& 0b11110 = 0b01110) :
    s.st = .sendDone ∧ s.idx = 9 := by
  have hbits : s.stBit = true ∧ s.lastBit = true := by
    revert h
    unfold State.sel
    generalize s.rst = a; generalize s.tick = b; generalize s.stBit = c
    generalize s.lastBit = d; generalize s.lastByte = e
    revert a b c d e; decide
  simpa [State.stBit, State.lastBit] using hbits

theorem decodeSequencer_isSome_of_inv {s : State} (hi : s.Inv) : ∃ q, decodeSequencer s.sel = some q := by
  refine Option.ne_none_iff_exists'.mp fun hnone => ?_
  obtain ⟨hst, hidx⟩ := sendDone_and_idx_of_sel_0111x ((decodeSequencer_eq_none_iff _).mp hnone)
  obtain ⟨-, -, -, hdone⟩ := hi
  simp [hdone hst] at hidx

/-! ### A selected operation completes under `Inv`, and so does the edge -/

theorem perform_eq_next {s : State} {i : Instr} (hi : s.Inv) (hsel : i.selects s.sel = true) (after : State) :
    s.perform i after = .next after :=
  (s.perform_eq_next_iff after after i).mpr ⟨hi, hsel, rfl⟩

theorem exec_eq_next_of_selects {s : State} {i : Instr} (hi : s.Inv) (hsel : i.selects s.sel = true) :
    ∃ t, exec i s = .next t := by
  cases i with
  | reset =>
    rw [selects_reset] at hsel
    exact ⟨_, (s.performReset_eq_next_iff _ _).mpr ⟨hsel, rfl⟩⟩
  | shiftBit =>
    obtain ⟨v, hv⟩ := hi.frameBit_isSome s.idx
    simp [exec, execShiftBit, hv, perform_eq_next hi hsel]
  | shiftStop => simp [exec, execShiftStop, hi.frameBit_stop, perform_eq_next hi hsel]
  | divDec | divReload | seqHold | doneAdvance | doneHalt => exact ⟨_, perform_eq_next hi hsel _⟩

/-- An edge completes from every state that satisfies `Inv`, with or without reset (R76). -/
theorem step_eq_next_of_inv {s : State} (hi : s.Inv) : ∃ t, step s = .next t := by
  obtain ⟨d, hd⟩ := Option.ne_none_iff_exists'.mp (decodeDivider_ne_none s.sel)
  obtain ⟨q, hq⟩ := decodeSequencer_isSome_of_inv hi
  obtain ⟨d', hd'⟩ := exec_eq_next_of_selects hi (decodeDivider_selects hd)
  obtain ⟨q', hq'⟩ := exec_eq_next_of_selects hi (decodeSequencer_selects hq)
  exact ⟨s.commit d' q', by simp [step, decodeEdge, hd, hq, hd', hq', State.commitEdge]⟩

/-! ### What one edge does to the divider, and in the terminal state to the line -/

/-- The counter after an edge is a function of N, `cnt` and `rst` alone (R50, R51, R89). -/
theorem step_cnt {s t : State} (h : step s = .next t) :
    t.cnt = if s.rst = true ∨ s.cnt = 0 then s.circuit.divisor else s.cnt - 1 := by
  obtain ⟨hr, rfl⟩ | ⟨-, hr, hcases⟩ := step_next_cases h
  · simp [hr, State.engineReset]
  · obtain ⟨hc, rfl⟩ | ⟨hc, -, -, v, -, rfl⟩ | ⟨hc, -, -, rfl⟩ | ⟨hc, -, -, -, rfl⟩ | ⟨hc, -, -, -, rfl⟩ := hcases
      <;> simp [hr, hc]

/-- In the terminal state an edge without reset leaves the line as it was, tick or no tick (R63, R64). -/
theorem step_tx_of_terminal {s t : State} (hr : s.rst = false) (hterm : s.Terminal) (h : step s = .next t) :
    t.tx = s.tx := by
  obtain ⟨hst, hseq⟩ := hterm
  obtain ⟨hrst, -⟩ | ⟨-, -, hcases⟩ := step_next_cases h
  · simp [hr] at hrst
  · obtain ⟨-, rfl⟩ | ⟨-, hwait, -⟩ | ⟨-, hwait, -⟩ | ⟨-, -, -, hlt, -⟩ | ⟨-, -, -, -, rfl⟩ := hcases
    · rfl
    · simp [hst] at hwait
    · simp [hst] at hwait
    · omega
    · rfl

theorem decodeDivider_of_rst_eq_false {s : State} (hr : s.rst = false) :
    decodeDivider s.sel = some .divDec ∨ decodeDivider s.sel = some .divReload := by
  rw [decodeDivider_eq_some_iff (i := .divDec) (by decide), decodeDivider_eq_some_iff (i := .divReload) (by decide),
    ← selects_iff, ← selects_iff, selects_divDec_iff, selects_divReload_iff]
  by_cases hc : s.cnt = 0
  · exact .inr ⟨hr, hc⟩
  · exact .inl ⟨hr, hc⟩

/-- Settles O27: without reset every word selects a divider operation, the edge completes under `Inv` and keeps the
terminal line, and `step_cnt` gives the next `cnt` from N, `cnt` and `rst` alone. -/
theorem dividerIsFreeRunning : Obligations.DividerIsFreeRunning := by
  refine ⟨fun s hi hr => ⟨decodeDivider_of_rst_eq_false hr, ?_⟩, fun a b ta tb hN hc hr ha hb => ?_⟩
  · obtain ⟨t, ht⟩ := step_eq_next_of_inv hi
    exact ⟨t, ht, fun hterm => step_tx_of_terminal hr hterm ht⟩
  · rw [step_cnt ha, step_cnt hb, hN, hc, hr]

/-- Settles O7: the word `00xxx` says `rst = 0` and `cnt ≠ 0`, which is the guard of the decrement; under `Inv`,
`N = 1` forces `cnt = 1`. -/
theorem divDecCountsDown : Obligations.DivDecCountsDown := by
  intro s hi hw
  have hsel : Instr.divDec.selects s.sel = true := (selects_iff _ _).mpr hw
  obtain ⟨hr, hc⟩ := (selects_divDec_iff s).mp hsel
  have hle : s.cnt ≤ s.circuit.divisor := hi.1
  refine ⟨hr, by omega, by simpa using hc, perform_eq_next hi hsel _, fun h1 => ?_, fun hN => ?_⟩
  · simp [h1]
  · simp only [tick_eq_true_iff]
    omega

/-- Settles O8: the word `01xxx` says `rst = 0` and `cnt = 0`; the reloaded N is at least 1, and the sequencer's
operation, which exists under `Inv`, is one that a tick selects. -/
theorem divReloadWritesDivisor : Obligations.DivReloadWritesDivisor := by
  intro s hi hw
  have hsel : Instr.divReload.selects s.sel = true := (selects_iff _ _).mpr hw
  obtain ⟨hr, hc⟩ := (selects_divReload_iff s).mp hsel
  have hN := s.circuit.divisor_pos
  obtain ⟨q, hq⟩ := decodeSequencer_isSome_of_inv hi
  have hqsel := decodeSequencer_selects hq
  refine ⟨hr, hc, by simpa using hc, perform_eq_next hi hsel _, ?_, q, hq, ?_, ?_⟩
  · simp only [tick_eq_false_iff]
    omega
  · rintro rfl
    exact ((selects_seqHold_iff s).mp hqsel).2 hc
  · rintro rfl
    simp [selects_reset, hr] at hqsel

end Sys2Proof.Proofs
end

section
/-! PROOFS. The FrameShifter of 41_frame_shifter.md: which of its two operations a state selects, the bits of the
frame it drives, and the whole next state of each operation. -/

namespace Sys2Proof.Proofs

open Machine

/-! ### Which FrameShifter operation a state selects (R45) -/

@[simp] theorem stBit_eq_false_iff (s : State) : s.stBit = false ↔ s.st = .sendWait := by
  cases h : s.st <;> simp [State.stBit, h]

@[simp] theorem lastBit_eq_true_iff (s : State) : s.lastBit = true ↔ s.idx = 9 := by
  simp [State.lastBit]

@[simp] theorem lastBit_eq_false_iff (s : State) : s.lastBit = false ↔ s.idx ≠ 9 := by
  simp [State.lastBit]

theorem selects_shiftBit_iff (s : State) :
    Instr.shiftBit.selects s.sel = true ↔ s.rst = false ∧ s.tick = true ∧ s.st = .sendWait ∧ s.idx ≠ 9 := by
  simp [selects_shiftBit, and_assoc]

theorem selects_shiftStop_iff (s : State) :
    Instr.shiftStop.selects s.sel = true ↔ s.rst = false ∧ s.tick = true ∧ s.st = .sendWait ∧ s.idx = 9 := by
  simp [selects_shiftStop, and_assoc]

/-! ### The bits of a frame (R40) -/

/-- Frame bit `k + 1` is data bit `k`: least-significant bit first, after the start bit (R57). -/
theorem frame_data (b : Byte) {k : Nat} (hk : k < 8) : (frame b).getLsbD (k + 1) = b.getLsbD k := by
  calc (frame b).getLsbD (k + 1)
      = (1#1 ++ b).getLsbD k := (BitVec.getLsbD_append (y := 0#1)).trans (by simp)
    _ = b.getLsbD k := BitVec.getLsbD_append.trans (if_pos hk)

/-- The frame of 0x00 is 0 up to the stop bit (R57). -/
theorem frame_zero {i : Nat} (hi : i ≤ 8) : (frame 0x00).getLsbD i = false := by
  cases i with
  | zero => exact frame_start _
  | succ k => simp [frame_data _ (show k < 8 by omega)]

/-- The frame of 0xFF is 1 from the first data bit to the stop bit (R57). -/
theorem frame_allOnes {i : Nat} (h1 : 1 ≤ i) (h9 : i ≤ 9) : (frame 0xFF).getLsbD i = true := by
  obtain ⟨k, rfl⟩ := Nat.exists_eq_add_of_le' h1
  by_cases hk : k < 8
  · rw [frame_data _ hk]
    exact (BitVec.getLsbD_allOnes (v := 8)).trans (by simpa using hk)
  · obtain rfl : k = 8 := by omega
    exact frame_stop _

/-! ### The whole next state of a selected operation -/

theorem exec_shiftBit_eq_next {s : State} {b : Byte} (hi : s.Inv) (hsel : Instr.shiftBit.selects s.sel = true)
    (hb : s.memRead s.seq = some b) :
    exec .shiftBit s = .next { s with tx := (frame b).getLsbD s.idx, idx := s.idx + 1 } := by
  have hv : s.frameBit s.idx = some ((frame b).getLsbD s.idx) := by simp [State.frameBit, hb]
  simp only [exec, execShiftBit, hv, perform_eq_next hi hsel]
  rfl

theorem exec_shiftStop_eq_next {s : State} (hi : s.Inv) (hsel : Instr.shiftStop.selects s.sel = true) :
    exec .shiftStop s = .next { s with tx := true, idx := 0, st := .sendDone } := by
  simp only [exec, execShiftStop, hi.frameBit_stop, perform_eq_next hi hsel]
  rfl

/-- Settles O9: the word `0100x` says a tick in SEND_WAIT before the last bit, the byte at `seq` exists under `Inv`,
and the bit driven is the start bit or the data bit before `idx`. -/
theorem shiftBitDrivesFrameBit : Obligations.ShiftBitDrivesFrameBit := by
  refine ⟨fun s hi hw => ?_, fun i => frame_zero, fun i => frame_allOnes⟩
  have hsel : Instr.shiftBit.selects s.sel = true := (selects_iff _ _).mpr hw
  obtain ⟨hr, htick, hst, hne⟩ := (selects_shiftBit_iff s).mp hsel
  have ⟨_, hle, _⟩ := hi
  have hidx : s.idx ≤ 8 := by omega
  obtain ⟨b, hb⟩ := hi.memRead_isSome
  refine ⟨hr, htick, hst, hidx, b, hb, exec_shiftBit_eq_next hi hsel hb, fun h0 => ?_, fun h1 => ?_⟩
  · rw [h0, frame_start]
  · obtain ⟨k, hk⟩ := Nat.exists_eq_add_of_le' h1
    rw [hk, frame_data b (by omega), Nat.add_sub_cancel]

/-- Settles O10: the word `0101x` says a tick in SEND_WAIT at the last bit, and every frame ends with a stop bit 1,
whichever byte `seq` is at. -/
theorem shiftStopDrivesStopBit : Obligations.ShiftStopDrivesStopBit := by
  intro s hi hw
  have hsel : Instr.shiftStop.selects s.sel = true := (selects_iff _ _).mpr hw
  obtain ⟨hr, htick, hst, hidx⟩ := (selects_shiftStop_iff s).mp hsel
  obtain ⟨b, hb⟩ := hi.memRead_isSome
  exact ⟨hr, htick, hst, hidx, ⟨b, hb, frame_stop b⟩, exec_shiftStop_eq_next hi hsel⟩

end Sys2Proof.Proofs
end

section
/-! PROOFS. The TransmitSequencer of 42_transmit_sequencer.md: which of its operations a state selects, what every edge
and so every run keeps, how `seq` moves, how many edges the next byte is away, and the terminal state. -/

namespace Sys2Proof.Proofs

open Machine

/-! ### Which sequencer operation a state selects in SEND_DONE (R45) -/

@[simp] theorem stBit_eq_true_iff (s : State) : s.stBit = true ↔ s.st = .sendDone := by
  simp [State.stBit]

@[simp] theorem lastByte_eq_true_iff (s : State) : s.lastByte = true ↔ s.seq = s.len - 1 := by
  simp [State.lastByte]

@[simp] theorem lastByte_eq_false_iff (s : State) : s.lastByte = false ↔ s.seq ≠ s.len - 1 := by
  simp [State.lastByte]

theorem selects_doneAdvance_iff (s : State) :
    Instr.doneAdvance.selects s.sel = true
      ↔ s.rst = false ∧ s.tick = true ∧ s.st = .sendDone ∧ s.idx ≠ 9 ∧ s.seq ≠ s.len - 1 := by
  simp [selects_doneAdvance, and_assoc]

theorem selects_doneHalt_iff (s : State) :
    Instr.doneHalt.selects s.sel = true
      ↔ s.rst = false ∧ s.tick = true ∧ s.st = .sendDone ∧ s.idx ≠ 9 ∧ s.seq = s.len - 1 := by
  simp [selects_doneHalt, and_assoc]

theorem decodeSequencer_eq_of_selects {i : Instr} (hi : i ∈ sequencerTable) {w : Sel} (h : i.selects w = true) :
    decodeSequencer w = some i :=
  (decodeSequencer_eq_some_iff hi w).mpr ((selects_iff i w).mp h)

/-! ### What every edge keeps -/

@[simp] theorem commit_len (s d q : State) : (s.commit d q).len = s.len := rfl

/-- An edge leaves the circuit as it was and moves on by one cycle of inputs (R23; log 5). -/
theorem step_surroundings {s t : State} (h : step s = .next t) :
    t.circuit = s.circuit ∧ ∀ k, t.inputAt k = s.inputAt (k + 1) := by
  obtain ⟨-, rfl⟩ | ⟨-, -, hcases⟩ := step_next_cases h
  · simp
  · obtain ⟨-, rfl⟩ | ⟨-, -, -, v, -, rfl⟩ | ⟨-, -, -, rfl⟩ | ⟨-, -, -, -, rfl⟩ | ⟨-, -, -, -, rfl⟩ := hcases
      <;> simp

/-- An edge keeps `Inv`, with or without reset (R24). -/
theorem step_inv {s t : State} (hi : s.Inv) (h : step s = .next t) : t.Inv := by
  obtain ⟨hcnt, hidx, hseq, hdone⟩ := hi
  obtain ⟨-, rfl⟩ | ⟨-, -, hcases⟩ := step_next_cases h
  · simp [State.Inv, State.engineReset]
  · obtain ⟨-, rfl⟩ | ⟨-, hst, hlt, v, -, rfl⟩ | ⟨-, -, -, rfl⟩ | ⟨-, -, h0, hlt, rfl⟩ | ⟨-, -, h0, -, rfl⟩ := hcases
    · exact ⟨by simp only [State.commit_cnt, State.setCnt_cnt, State.commit_circuit]; omega, hidx, hseq, hdone⟩
    · exact ⟨le_rfl, hlt, hseq, by simp [hst]⟩
    · exact ⟨le_rfl, Nat.zero_le 9, hseq, fun _ => rfl⟩
    · exact ⟨le_rfl, hidx, hlt, by simp⟩
    · exact ⟨le_rfl, hidx, hseq, fun _ => h0⟩

/-! ### From one edge to a run -/

/-- What every edge keeps, every run keeps. -/
theorem run_keeps {P : State → Prop} (keeps : ∀ {s t}, P s → step s = .next t → P t) {n : Nat} {s t : State}
    (hs : P s) (h : run n s = .next t) : P t := by
  induction n generalizing s with
  | zero => cases h; exact hs
  | succ n ih =>
    obtain ⟨u, hu, hrun⟩ := run_succ_next h
    exact ih (keeps hs hu) hrun

theorem run_circuit {n : Nat} {s t : State} (h : run n s = .next t) : t.circuit = s.circuit :=
  run_keeps (P := fun u => u.circuit = s.circuit) (fun hu hv => (step_surroundings hv).1.trans hu) rfl h

theorem run_inv {n : Nat} {s t : State} (hi : s.Inv) (h : run n s = .next t) : t.Inv :=
  run_keeps step_inv hi h

/-- A run of any length completes from every state that satisfies `Inv` (R76). -/
theorem run_eq_next_of_inv (n : Nat) {s : State} (hi : s.Inv) : ∃ t, run n s = .next t := by
  induction n generalizing s with
  | zero => exact ⟨s, rfl⟩
  | succ n ih =>
    obtain ⟨u, hu⟩ := step_eq_next_of_inv hi
    obtain ⟨t, ht⟩ := ih (step_inv hi hu)
    exact ⟨t, (run_succ n hu).trans ht⟩

theorem run_inputAt {n : Nat} {s t : State} (h : run n s = .next t) (k : Nat) :
    t.inputAt k = s.inputAt (n + k) := by
  induction n generalizing s with
  | zero => cases h; rw [Nat.zero_add]
  | succ n ih =>
    obtain ⟨u, hu, hrun⟩ := run_succ_next h
    rw [ih hrun, (step_surroundings hu).2, Nat.add_right_comm]

theorem noReset_of_run {m n : Nat} {s t : State} (hr : s.NoReset (m + n)) (h : run m s = .next t) :
    t.NoReset n := by
  intro k hk
  rw [run_inputAt h]
  exact hr _ (Nat.add_lt_add_left hk m)

theorem rst_eq_false_of_noReset {n : Nat} {s : State} (hr : s.NoReset (n + 1)) : s.rst = false :=
  hr 0 n.succ_pos

theorem noReset_of_step {n : Nat} {s t : State} (hr : s.NoReset (n + 1)) (h : step s = .next t) : t.NoReset n :=
  noReset_of_run (m := 1) (by rwa [Nat.add_comm]) (run_succ 0 h)

/-- What every edge without reset keeps, every run without reset keeps. -/
theorem run_keeps_of_noReset {P : State → Prop} (keeps : ∀ {s t}, P s → s.rst = false → step s = .next t → P t)
    {n : Nat} {s t : State} (hs : P s) (hr : s.NoReset n) (h : run n s = .next t) : P t := by
  induction n generalizing s with
  | zero => cases h; exact hs
  | succ n ih =>
    obtain ⟨u, hu, hrun⟩ := run_succ_next h
    exact ih (keeps hs (rst_eq_false_of_noReset hr) hu) (noReset_of_step hr hu) hrun

/-! ### How `seq` moves (R66) -/

/-- At an edge without reset `seq` stays, or DONE_ADVANCE adds one to it, from below L-1. -/
theorem step_seq {s t : State} (hr : s.rst = false) (h : step s = .next t) :
    t.seq = s.seq
      ∨ (t.seq = s.seq + 1 ∧ s.seq < s.len - 1 ∧ decodeSequencer s.sel = some .doneAdvance) := by
  obtain ⟨hrst, -⟩ | ⟨-, -, hcases⟩ := step_next_cases h
  · simp [hr] at hrst
  · obtain ⟨-, rfl⟩ | ⟨-, -, -, v, -, rfl⟩ | ⟨-, -, -, rfl⟩ | ⟨hc, hst, h0, hlt, rfl⟩ | ⟨-, -, -, -, rfl⟩ := hcases
    · exact .inl rfl
    · exact .inl rfl
    · exact .inl rfl
    · have hsel : Instr.doneAdvance.selects s.sel = true :=
        (selects_doneAdvance_iff s).mpr ⟨hr, by simpa using hc, hst, by omega, by omega⟩
      exact .inr ⟨rfl, hlt, decodeSequencer_eq_of_selects (by decide) hsel⟩
    · exact .inl rfl

theorem seq_le_of_run {n : Nat} {s t : State} (hr : s.NoReset n) (h : run n s = .next t) : s.seq ≤ t.seq := by
  refine run_keeps_of_noReset (P := fun u => s.seq ≤ u.seq) (fun hu hrst hstep => ?_) le_rfl hr h
  obtain heq | ⟨hsucc, -, -⟩ := step_seq hrst hstep <;> omega

/-! ### The next byte comes -/

/-- The ticks still to come in the current frame: one for each bit from `idx` to the stop bit (R57, R58). -/
def ticksLeft (s : State) : Nat :=
  match s.st with
  | .sendWait => 10 - s.idx
  | .sendDone => 0

/-- The edges before the next DONE_ADVANCE, in a frame of a byte that is not the last: the current countdown, and a
bit period for each tick left of the frame (R52, R66). -/
def edgesToAdvance (s : State) : Nat := ticksLeft s * s.circuit.bitPeriod + s.cnt

theorem edgesToAdvance_sendWait {s : State} (h : s.st = .sendWait) :
    edgesToAdvance s = (10 - s.idx) * s.circuit.bitPeriod + s.cnt := by
  simp [edgesToAdvance, ticksLeft, h]

theorem edgesToAdvance_sendDone {s : State} (h : s.st = .sendDone) : edgesToAdvance s = s.cnt := by
  simp [edgesToAdvance, ticksLeft, h]

/-- A tick that uses up one of the frame's ticks reloads N, so it uses up one edge as well. -/
theorem edges_of_tick (k N : Nat) : k * (N + 1) + N + 1 = (k + 1) * (N + 1) := by ring

/-- Below L-1 an edge without reset moves to the next byte, or comes one edge closer to doing so. -/
theorem step_advances_or_nears {s t : State} (hr : s.rst = false) (hlt : s.seq < s.len - 1)
    (h : step s = .next t) :
    t.seq = s.seq + 1 ∨ (t.seq = s.seq ∧ edgesToAdvance t + 1 = edgesToAdvance s) := by
  obtain ⟨hrst, -⟩ | ⟨-, -, hcases⟩ := step_next_cases h
  · simp [hr] at hrst
  · obtain ⟨hc, rfl⟩ | ⟨hc, hst, hidx, v, -, rfl⟩ | ⟨hc, hst, hidx, rfl⟩ | ⟨-, -, -, -, rfl⟩ | ⟨-, -, -, hlast, -⟩ :=
      hcases
    · refine .inr ⟨rfl, ?_⟩
      have hticks : ticksLeft (s.commit (s.setCnt (s.cnt - 1)) s) = ticksLeft s := rfl
      simp only [edgesToAdvance, hticks, State.commit_circuit, State.commit_cnt, State.setCnt_cnt]
      omega
    · refine .inr ⟨rfl, ?_⟩
      rw [edgesToAdvance_sendWait hst, edgesToAdvance_sendWait (by simpa using hst), hc]
      have hten : 10 - s.idx = 10 - (s.idx + 1) + 1 := by omega
      simpa [Circuit.bitPeriod, hten] using edges_of_tick (10 - (s.idx + 1)) s.circuit.divisor
    · refine .inr ⟨rfl, ?_⟩
      rw [edgesToAdvance_sendWait hst, edgesToAdvance_sendDone rfl, hc, hidx]
      simp [Circuit.bitPeriod]
    · exact .inl rfl
    · omega

/-- A state below L-1 moves to the next byte at some later edge, if no reset comes. -/
theorem exists_run_seq_succ {s : State} (hi : s.Inv) (hr : ∀ n, s.NoReset n) (hlt : s.seq < s.len - 1) :
    ∃ n t, run n s = .next t ∧ t.seq = s.seq + 1 := by
  induction hk : edgesToAdvance s generalizing s with
  | zero =>
    obtain ⟨t, ht⟩ := step_eq_next_of_inv hi
    obtain hnext | ⟨-, hnear⟩ := step_advances_or_nears (rst_eq_false_of_noReset (hr 1)) hlt ht
    · exact ⟨1, t, run_succ 0 ht, hnext⟩
    · omega
  | succ k ih =>
    obtain ⟨u, hu⟩ := step_eq_next_of_inv hi
    obtain hnext | ⟨hsame, hnear⟩ := step_advances_or_nears (rst_eq_false_of_noReset (hr 1)) hlt hu
    · exact ⟨1, u, run_succ 0 hu, hnext⟩
    · have hlen : u.len = s.len := congrArg Circuit.length (step_surroundings hu).1
      obtain ⟨n, t, ht, hseq⟩ := ih (step_inv hi hu) (fun n => noReset_of_step (hr (n + 1)) hu)
        (by rw [hlen, hsame]; exact hlt) (by omega)
      exact ⟨n + 1, t, (run_succ n hu).trans ht, by rw [hseq, hsame]⟩

theorem start_inv (c : Circuit) (ins : List Inputs) : (State.start c ins).Inv := by
  simp [State.Inv]

/-- From reset, with no further reset, every byte index of the message is reached. -/
theorem exists_run_start_seq {c : Circuit} {ins : List Inputs} (hr : ∀ n, (State.start c ins).NoReset n) {j : Nat}
    (hj : j < c.length) : ∃ n t, run n (State.start c ins) = .next t ∧ t.seq = j := by
  induction j with
  | zero => exact ⟨0, _, rfl, rfl⟩
  | succ j ih =>
    obtain ⟨m, u, hu, hseq⟩ := ih (by omega)
    have hlen : u.len = c.length := congrArg Circuit.length (run_circuit hu)
    obtain ⟨n, t, ht, hnext⟩ := exists_run_seq_succ (run_inv (start_inv c ins) hu)
      (fun n => noReset_of_run (hr (m + n)) hu) (by omega)
    exact ⟨m + n, t, (run_add m n hu).trans ht, by rw [hnext, hseq]⟩

/-- Settles O34: `Inv` is kept and bounds `seq`; an edge moves `seq` by DONE_ADVANCE alone, so a run never lowers it; and
below L-1 the edges to the next DONE_ADVANCE count down, so each next byte comes. -/
theorem sequencerIndexCountsUp : Obligations.SequencerIndexCountsUp := by
  refine ⟨fun s t hi hr h => ?_, fun m n s t u _ hr ht hu => ?_, fun c ins j hr hj => exists_run_start_seq hr hj⟩
  · obtain ⟨-, -, hseq, -⟩ := step_inv hi h
    exact ⟨hseq, step_seq hr h⟩
  · exact seq_le_of_run (noReset_of_run hr ht) hu

/-! ### The terminal state (R67) -/

theorem idx_eq_zero_of_sendDone {s : State} (hi : s.Inv) (hst : s.st = .sendDone) : s.idx = 0 := by
  obtain ⟨-, -, -, hdone⟩ := hi
  exact hdone hst

/-- A terminal state at byte `k` in which the engine rests, with the line at 1. -/
structure RestsAt (k : Nat) (s : State) : Prop where
  inv : s.Inv
  terminal : s.Terminal
  seq_eq : s.seq = k
  tx_eq : s.tx = true

theorem restsAt_of_lineInv {s : State} (hline : s.LineInv) (hterm : s.Terminal) : RestsAt s.seq s := by
  obtain ⟨hi, hidle, -⟩ := hline
  exact ⟨hi, hterm, rfl, hidle (.inl hterm.1)⟩

/-- In the terminal state an edge without reset writes none of the sequencer's and shifter's registers. -/
theorem step_eq_commit_self_of_terminal {s t : State} (hterm : s.Terminal) (hr : s.rst = false)
    (h : step s = .next t) : ∃ d, t = s.commit d s := by
  obtain ⟨hst, hseq⟩ := hterm
  obtain ⟨hrst, -⟩ | ⟨-, -, hcases⟩ := step_next_cases h
  · simp [hr] at hrst
  · obtain ⟨-, ht⟩ | ⟨-, hwait, -⟩ | ⟨-, hwait, -⟩ | ⟨-, -, -, hlt, -⟩ | ⟨-, -, -, -, ht⟩ := hcases
    · exact ⟨_, ht⟩
    · simp [hst] at hwait
    · simp [hst] at hwait
    · omega
    · exact ⟨_, ht⟩

theorem step_restsAt {k : Nat} {s t : State} (hs : RestsAt k s) (hr : s.rst = false) (h : step s = .next t) :
    RestsAt k t := by
  have hi : t.Inv := step_inv hs.inv h
  obtain ⟨d, rfl⟩ := step_eq_commit_self_of_terminal hs.terminal hr h
  exact ⟨hi, hs.terminal, hs.seq_eq, hs.tx_eq⟩

/-- In the terminal state an edge without reset is SEQ_HOLD or, at a tick, DONE_HALT. -/
theorem decodeSequencer_of_terminal {s : State} (hi : s.Inv) (hterm : s.Terminal) (hr : s.rst = false) :
    decodeSequencer s.sel = some .seqHold ∨ decodeSequencer s.sel = some .doneHalt := by
  obtain ⟨hst, hseq⟩ := hterm
  by_cases hc : s.cnt = 0
  · have hsel : Instr.doneHalt.selects s.sel = true :=
      (selects_doneHalt_iff s).mpr ⟨hr, by simpa using hc, hst, by simp [idx_eq_zero_of_sendDone hi hst], hseq⟩
    exact .inr (decodeSequencer_eq_of_selects (by decide) hsel)
  · exact .inl (decodeSequencer_eq_of_selects (by decide) ((selects_seqHold_iff s).mpr ⟨hr, hc⟩))

/-- Settles O35: the run completes under `Inv`, an edge without reset keeps the engine at rest in its terminal state, and
the operation after `n` edges is that of a terminal state whose `rst` is still 0. -/
theorem terminalStateIsKept : Obligations.TerminalStateIsKept := by
  intro s n hline hterm hr
  obtain ⟨t, ht⟩ := run_eq_next_of_inv n hline.1
  have hn : s.NoReset n := fun k hk => hr k (by omega)
  obtain ⟨hinv, htt, hseq, htx⟩ : RestsAt s.seq t :=
    run_keeps_of_noReset step_restsAt (restsAt_of_lineInv hline hterm) hn ht
  have htr : t.rst = false := rst_eq_false_of_noReset (n := 0) (noReset_of_run hr ht)
  exact ⟨t, ht, htt, hseq, idx_eq_zero_of_sendDone hinv htt.1, htx, decodeSequencer_of_terminal hinv htt htr⟩

end Sys2Proof.Proofs
end

section
/-! PROOFS. The composite edge of 43_edge_step.md: when a step completes, what each engine register holds after it as a
function of the pre-edge engine registers and `rst`, and so the determinism of the engine's run. -/

namespace Sys2Proof.Proofs

open Machine

/-! ### When an edge completes -/

/-- An edge with reset completes from every state, also from one that breaks `Inv` (R89; log 8). -/
theorem step_eq_of_rst {s : State} (hr : s.rst = true) :
    step s = .next (s.commit s.engineReset s.engineReset) := by
  have hexec : exec .reset s = .next s.engineReset := (s.performReset_eq_next_iff _ _).mpr ⟨hr, rfl⟩
  simp [step, decodeEdge_sel, hr, hexec, State.commitEdge]

theorem step_completes_iff (s : State) : (∃ t, step s = .next t) ↔ s.rst = true ∨ s.Inv := by
  constructor
  · rintro ⟨t, h⟩
    obtain ⟨hr, -⟩ | ⟨hi, -, -⟩ := step_next_cases h
    · exact .inl hr
    · exact .inr hi
  · rintro (hr | hi)
    · exact ⟨_, step_eq_of_rst hr⟩
    · exact step_eq_next_of_inv hi

/-! ### The registers after an edge, one law for each; the law of `cnt` is `step_cnt` (R69) -/

section registers
variable {s t : State} (h : step s = .next t)
include h

theorem step_idx_eq :
    t.idx = if s.rst = true then 0
      else if s.cnt = 0 ∧ s.st = .sendWait then (if s.idx = 9 then 0 else s.idx + 1)
      else s.idx := by
  obtain ⟨hr, rfl⟩ | ⟨-, hr, hcases⟩ := step_next_cases h
  · simp [hr, State.engineReset]
  · obtain ⟨hc, rfl⟩ | ⟨hc, hst, hidx, v, -, rfl⟩ | ⟨hc, hst, hidx, rfl⟩ | ⟨hc, hst, -, -, rfl⟩ | ⟨hc, hst, -, -, rfl⟩ :=
      hcases
    · simp [hr, hc]
    · simp [hr, hc, hst, hidx.ne]
    · simp [hr, hc, hst, hidx]
    · simp [hr, hst]
    · simp [hr, hst]

theorem step_st_eq :
    t.st = if s.rst = true then .sendWait
      else if s.cnt = 0 ∧ s.st = .sendWait ∧ s.idx = 9 then .sendDone
      else if s.cnt = 0 ∧ s.st = .sendDone ∧ s.seq ≠ s.len - 1 then .sendWait
      else s.st := by
  obtain ⟨hr, rfl⟩ | ⟨-, hr, hcases⟩ := step_next_cases h
  · simp [hr, State.engineReset]
  · obtain ⟨hc, rfl⟩ | ⟨hc, hst, hidx, v, -, rfl⟩ | ⟨hc, hst, hidx, rfl⟩ | ⟨hc, hst, -, hlt, rfl⟩
      | ⟨hc, hst, -, hlast, rfl⟩ := hcases
    · simp [hr, hc]
    · simp [hr, hst, hidx.ne]
    · simp [hr, hc, hst, hidx]
    · simp [hr, hc, hst, hlt.ne]
    · simp [hr, hst, hlast]

theorem step_seq_eq :
    t.seq = if s.rst = true then 0
      else if s.cnt = 0 ∧ s.st = .sendDone ∧ s.seq ≠ s.len - 1 then s.seq + 1
      else s.seq := by
  obtain ⟨hr, rfl⟩ | ⟨-, hr, hcases⟩ := step_next_cases h
  · simp [hr, State.engineReset]
  · obtain ⟨hc, rfl⟩ | ⟨-, hst, -, v, -, rfl⟩ | ⟨-, hst, -, rfl⟩ | ⟨hc, hst, -, hlt, rfl⟩ | ⟨-, -, -, hlast, rfl⟩ :=
      hcases
    · simp [hr, hc]
    · simp [hr, hst]
    · simp [hr, hst]
    · simp [hr, hc, hst, hlt.ne]
    · simp [hr, hlast]

/-- At a tick in SEND_WAIT the line takes frame bit `idx`, which for `idx = 9` is the stop bit (R57, R58). -/
theorem step_tx_eq :
    some t.tx = if s.rst = true then some true
      else if s.cnt = 0 ∧ s.st = .sendWait then s.frameBit s.idx
      else some s.tx := by
  obtain ⟨hr, rfl⟩ | ⟨hi, hr, hcases⟩ := step_next_cases h
  · simp [hr, State.engineReset]
  · obtain ⟨hc, rfl⟩ | ⟨hc, hst, -, v, hv, rfl⟩ | ⟨hc, hst, hidx, rfl⟩ | ⟨-, hst, -, -, rfl⟩ | ⟨-, hst, -, -, rfl⟩ :=
      hcases
    · simp [hr, hc]
    · simp [hr, hc, hst, hv]
    · simp [hr, hc, hst, hidx, hi.frameBit_stop]
    · simp [hr, hst]
    · simp [hr, hst]

end registers

/-- Settles O18: an edge with reset completes in every state and leaves the reset values; one without reset completes
under `Inv`, and each register's law gives its value in each row of R69. -/
theorem stepIsCompositeEdge : Obligations.StepIsCompositeEdge := by
  refine fun s => ⟨fun hr => ⟨_, step_eq_of_rst hr, rfl, rfl, rfl, rfl, rfl, rfl⟩, fun hr hi => ?_⟩
  obtain ⟨t, h⟩ := step_eq_next_of_inv hi
  refine ⟨t, h, (step_surroundings h).1, fun hc => ?reload, fun hc => ?count, fun hc => ?hold,
    fun hc hwait hne => ?shiftBit, fun hc hwait hlast => ?shiftStop, fun hc hdone hne => ?advance,
    fun hc hdone hlast => ?halt⟩
  case reload => simp [step_cnt h, hc]
  case count => simp [step_cnt h, hr, hc]
  case hold =>
    have htx : t.tx = s.tx := by simpa [hr, hc] using step_tx_eq h
    simp [htx, step_idx_eq h, step_st_eq h, step_seq_eq h, hr, hc]
  case shiftBit =>
    have htx : some t.tx = s.frameBit s.idx := by simpa [hr, hc, hwait] using step_tx_eq h
    simp [htx, step_idx_eq h, step_st_eq h, step_seq_eq h, hr, hc, hwait, hne]
  case shiftStop =>
    have htx : t.tx = true := by simpa [hr, hc, hwait, hlast, hi.frameBit_stop] using step_tx_eq h
    simp [htx, step_idx_eq h, step_st_eq h, step_seq_eq h, hr, hc, hwait, hlast]
  case advance =>
    have htx : t.tx = s.tx := by simpa [hr, hdone] using step_tx_eq h
    simp [htx, step_idx_eq h, step_st_eq h, step_seq_eq h, hr, hc, hdone, hne]
  case halt =>
    have htx : t.tx = s.tx := by simpa [hr, hdone] using step_tx_eq h
    simp [htx, step_idx_eq h, step_st_eq h, step_seq_eq h, hr, hdone, hlast]

/-! ### Determinism (R70) -/

section sameEngine
variable {a b : State} (he : a.SameEngine b)
include he

theorem len_eq_of_sameEngine : a.len = b.len := by
  obtain ⟨-, hbuf, -⟩ := he
  exact congrArg List.length hbuf

theorem frameBit_eq_of_sameEngine (i : Nat) : a.frameBit i = b.frameBit i := by
  obtain ⟨-, hbuf, -, -, -, hseq, -⟩ := he
  simp [State.frameBit, State.memRead, hbuf, hseq]

theorem inv_of_sameEngine (hi : a.Inv) : b.Inv := by
  have hlen := len_eq_of_sameEngine he
  obtain ⟨hN, -, hcnt, hidx, hst, hseq, -⟩ := he
  simpa [State.Inv, hN, hcnt, hidx, hst, hseq, hlen] using hi

/-- Edges with the same reset input keep two states in agreement on the engine. -/
theorem step_sameEngine (hr : a.rst = b.rst) {ta tb : State} (ha : step a = .next ta) (hb : step b = .next tb) :
    ta.SameEngine tb := by
  have hlen := len_eq_of_sameEngine he
  have hbit := frameBit_eq_of_sameEngine he
  obtain ⟨hN, hbuf, hcnt, hidx, hst, hseq, htx⟩ := he
  refine ⟨?_, ?_, ?_, ?_, ?_, ?_, Option.some.inj ?_⟩
  · rw [(step_surroundings ha).1, (step_surroundings hb).1, hN]
  · rw [(step_surroundings ha).1, (step_surroundings hb).1, hbuf]
  · rw [step_cnt ha, step_cnt hb, hN, hcnt, hr]
  · rw [step_idx_eq ha, step_idx_eq hb, hcnt, hidx, hst, hr]
  · rw [step_st_eq ha, step_st_eq hb, hcnt, hidx, hst, hseq, hlen, hr]
  · rw [step_seq_eq ha, step_seq_eq hb, hcnt, hst, hseq, hlen, hr]
  · rw [step_tx_eq ha, step_tx_eq hb, hbit, hcnt, hidx, hst, htx, hr]

/-- An edge completes from both of two states that agree on the engine and see the same reset input, or from neither. -/
theorem step_completes_of_sameEngine (hr : a.rst = b.rst) (ha : ∃ ta, step a = .next ta) :
    ∃ tb, step b = .next tb := by
  rw [step_completes_iff] at ha ⊢
  exact ha.imp (hr ▸ ·) (inv_of_sameEngine he)

end sameEngine

theorem run_sameEngine {n : Nat} {a b ta : State} (he : a.SameEngine b) (hr : a.SameResets b n)
    (ha : run n a = .next ta) : ∃ tb, run n b = .next tb ∧ ta.SameEngine tb := by
  induction n generalizing a b with
  | zero =>
    cases ha
    exact ⟨b, rfl, he⟩
  | succ n ih =>
    have hrst : a.rst = b.rst := hr 0 n.succ_pos
    obtain ⟨ua, hua, hrun⟩ := run_succ_next ha
    obtain ⟨ub, hub⟩ := step_completes_of_sameEngine he hrst ⟨ua, hua⟩
    have hresets : ua.SameResets ub n := by
      intro k hk
      rw [(step_surroundings hua).2, (step_surroundings hub).2]
      exact hr (k + 1) (Nat.succ_lt_succ hk)
    obtain ⟨tb, htb, het⟩ := ih (step_sameEngine he hrst hua hub) hresets hrun
    exact ⟨tb, (run_succ n hub).trans htb, het⟩

/-- Settles O41: a step completes under `Inv`, and each register's law names N, BUF, the five registers and `rst` alone,
so by induction on the length of the run two states stay in agreement. -/
theorem engineDependsOnResetsAlone : Obligations.EngineDependsOnResetsAlone :=
  ⟨fun _ => step_eq_next_of_inv, fun _ _ _ _ => run_sameEngine⟩

end Sys2Proof.Proofs
end

section
/-! PROOFS. No runtime error, of 60_exceptions.md: no step answers a fault, and under `Inv` the engine runs on for ever. -/

namespace Sys2Proof.Proofs

open Machine

/-- The model has no fault to answer: `Fault` has no constructor (R76; log 1). -/
theorem step_ne_fault (s : State) (r : Fault) : step s ≠ .fault r := nomatch r

/-- Settles O20: there is no fault, and since every edge completes under `Inv` and keeps it, so by induction does a run
of any length. -/
theorem noRuntimeError : Obligations.NoRuntimeError := by
  refine ⟨step_ne_fault, fun n s hi => ?_⟩
  obtain ⟨t, ht⟩ := run_eq_next_of_inv n hi
  exact ⟨t, ht, run_inv hi ht⟩

end Sys2Proof.Proofs
end

section
/-! PROOFS. Reset and the end of the message, of 70_reset_and_hazards.md: only a reset ends the terminal state's idle
line, and an edge with reset leaves the engine as it starts. -/

namespace Sys2Proof.Proofs

open Machine

/-! ### The state after an edge with reset (R89, R90) -/

/-- An edge with reset, from any state, leaves the engine as at power-on. -/
theorem sameEngine_start_of_rst {s t : State} (hr : s.rst = true) (h : step s = .next t) (ins : List Inputs) :
    t.SameEngine (State.start s.circuit ins) := by
  cases (step_eq_of_rst hr).symm.trans h
  simp [State.SameEngine, State.engineReset]

theorem inv_of_step_of_rst {s t : State} (hr : s.rst = true) (h : step s = .next t) : t.Inv := by
  cases (step_eq_of_rst hr).symm.trans h
  simp [State.Inv, State.engineReset]

theorem start_tail_inputAt (s : State) (k : Nat) :
    (State.start s.circuit s.inputs.tail).inputAt k = s.inputAt (k + 1) :=
  s.commit_inputAt s s k

/-! ### Nothing is sent again without a reset (R96) -/

/-- Settles O40: an edge without reset keeps the engine at rest in its terminal state with the line at 1. An edge with
reset leaves the engine as it starts, with the reset inputs after it those of a start on the remaining inputs, so the two
runs stay in agreement. -/
theorem noRetransmissionWithoutReset : Obligations.NoRetransmissionWithoutReset := by
  refine ⟨fun s n hline hterm hr => ?terminal, fun s n hr => ?restart⟩
  case terminal =>
    obtain ⟨t, ht⟩ := run_eq_next_of_inv n hline.1
    have hrest : RestsAt s.seq t := run_keeps_of_noReset step_restsAt (restsAt_of_lineInv hline hterm) hr ht
    exact ⟨t, ht, hrest.tx_eq⟩
  case restart =>
    obtain ⟨w, hw⟩ := (step_completes_iff s).mpr (.inl hr)
    obtain ⟨u, hu⟩ := run_eq_next_of_inv n (inv_of_step_of_rst hr hw)
    have hresets : w.SameResets (State.start s.circuit s.inputs.tail) n := fun k _ => by
      rw [(step_surroundings hw).2, start_tail_inputAt]
    obtain ⟨v, hv, hsame⟩ := run_sameEngine (sameEngine_start_of_rst hr hw _) hresets hu
    exact ⟨u, v, (run_succ n hw).trans hu, hv, hsame⟩

end Sys2Proof.Proofs
end

section
/-! PROOFS. The invariants of 10_state.md: the bounds on the engine's registers, and the line register, which shows the
frame bit driven last. -/

namespace Sys2Proof.Proofs

open Machine

/-- The frame being sent is a function of the circuit and `seq` (R41). -/
theorem frameBit_eq_of_seq_eq {s t : State} (hc : t.circuit = s.circuit) (hseq : t.seq = s.seq) (i : Nat) :
    t.frameBit i = s.frameBit i := by
  simp [State.frameBit, State.memRead, hc, hseq]

/-- Settles O21: each of the six cases of a step keeps the four bounds. -/
theorem everyStepKeepsInv : Obligations.EveryStepKeepsInv :=
  fun _ _ => step_inv

/-- After a tick in SEND_WAIT the line shows the bit driven last, whatever it showed before (R57, R58). -/
theorem step_lineInv_of_shift {s t : State} (hr : s.rst = false) (hc : s.cnt = 0) (hwait : s.st = .sendWait)
    (h : step s = .next t) : t.LineInv := by
  obtain ⟨hrst, -⟩ | ⟨hi, -, hcases⟩ := step_next_cases h
  · simp [hr] at hrst
  refine ⟨step_inv hi h, ?_⟩
  obtain ⟨hne, -⟩ | ⟨-, -, -, v, hv, rfl⟩ | ⟨-, -, -, rfl⟩ | ⟨-, hdone, -⟩ | ⟨-, hdone, -⟩ := hcases
  · exact absurd hc hne
  · exact ⟨by simp [hwait], fun _ => (frameBit_eq_of_seq_eq (s := s) rfl rfl _).trans hv⟩
  · exact ⟨fun _ => rfl, by simp⟩
  · simp [hwait] at hdone
  · simp [hwait] at hdone

/-- An edge keeps the line register on the bit driven last: a shift drives the frame bit before the new `idx`, and the
other edges leave the line, `idx` and the byte being sent as they were, or start over with the line at 1. -/
theorem step_lineInv {s t : State} (hs : s.LineInv) (h : step s = .next t) : t.LineInv := by
  obtain ⟨hi, hidle, hframe⟩ := hs
  have hi' : t.Inv := step_inv hi h
  obtain ⟨-, rfl⟩ | ⟨-, hr, hcases⟩ := step_next_cases h
  · exact ⟨hi', by simp [State.engineReset]⟩
  · obtain ⟨-, rfl⟩ | ⟨hc, hwait, -⟩ | ⟨hc, hwait, -⟩ | ⟨-, hdone, h0, -, rfl⟩ | ⟨-, -, -, -, rfl⟩ := hcases
    · exact ⟨hi', hidle, hframe⟩
    · exact step_lineInv_of_shift hr hc hwait h
    · exact step_lineInv_of_shift hr hc hwait h
    · exact ⟨hi', fun _ => hidle (.inl hdone), by simp [h0]⟩
    · exact ⟨hi', hidle, hframe⟩

/-- Settles O22: in each of the six cases of a step, the line shows the bit before the new `idx`, or the idle level. -/
theorem everyStepKeepsLineOnFrame : Obligations.EveryStepKeepsLineOnFrame :=
  fun _ _ => step_lineInv

end Sys2Proof.Proofs
end

section
/-! PROOFS. The encodings of 30_encoding.md: selector words and their bytes, the frame, and the selector word of a
state, also where the model places one. -/

namespace Sys2Proof.Proofs

open Machine

/-! ### Words and pairs of operations (R43 to R47) -/

/-- Settles O2: the tables evaluated at ten words of the spec. -/
theorem specWordsDecode : Obligations.SpecWordsDecode := by
  unfold Obligations.SpecWordsDecode
  decide

theorem decodeEdge_encodeEdge {p : EdgeOps} (h : p.wf = true) : decodeEdge (encodeEdge p) = .ok p := by
  obtain ⟨d, q⟩ := p
  revert h
  cases d <;> cases q <;> decide

theorem wf_of_decodeEdge {w : Sel} {p : EdgeOps} (h : decodeEdge w = .ok p) : p.wf = true := by
  obtain ⟨d, q⟩ := p
  revert w
  cases d <;> cases q <;> decide

/-- A byte below 32 decodes as the selector word in its low five bits (log 14). -/
theorem decode_setWidth_cons (w : Sel) (rest : List Byte) :
    decode (w.setWidth 8 :: rest) = (decodeEdge w).map fun p => (p, rest) := by
  have hlt : (w.setWidth 8).toNat < 32 := by
    have := w.isLt
    simp only [BitVec.toNat_setWidth]
    omega
  have hword : (w.setWidth 8).setWidth 5 = w := by
    simp
  simp only [decode, hlt, hword, if_true]

/-- Settles O3: the selector byte of a pair carries its word, whose decode is the pair; the converse is read off the
tables, and a byte of 32 or more is no selector word. -/
theorem encodedPairsDecodeBack : Obligations.EncodedPairsDecodeBack := by
  refine ⟨fun p rest hp => ?_, fun w p => wf_of_decodeEdge, fun b rest hb => ?_⟩
  · simp [encodeBytes, decode_setWidth_cons, decodeEdge_encodeEdge hp, Except.map]
  · simp [decode, Nat.not_lt.mpr hb]

/-! ### The frame (R40) -/

/-- Settles O4: the start bit, the data bits and the stop bit each by its law, and the closed form by the values. -/
theorem frameBitsAsListed : Obligations.FrameBitsAsListed :=
  fun b => ⟨frame_start b, fun _ => frame_data b, frame_stop b, by revert b; decide⟩

/-! ### The selector word of a state (R43) -/

theorem sel_bits (s : State) :
    s.sel.getLsbD 4 = s.rst ∧ s.sel.getLsbD 3 = s.tick ∧ s.sel.getLsbD 2 = s.stBit ∧ s.sel.getLsbD 1 = s.lastBit
      ∧ s.sel.getLsbD 0 = s.lastByte := by
  unfold State.sel; generalize s.rst = a; generalize s.tick = b; generalize s.stBit = c
  generalize s.lastBit = d; generalize s.lastByte = e; revert a b c d e; decide

/-- Settles O5: the five bits are the five signals, and each signal is its comparison of a register. -/
theorem selectorBitsOfState : Obligations.SelectorBitsOfState := by
  intro s
  obtain ⟨h4, h3, h2, h1, h0⟩ := sel_bits s
  rw [h4, h3, h2, h1, h0]
  exact ⟨rfl, tick_eq_true_iff s, stBit_eq_true_iff s, lastBit_eq_true_iff s, lastByte_eq_true_iff s⟩

/-! ### Placing a word (log 13) -/

theorem sel_eq_of_signals {s : State} {w : Sel} (h4 : s.rst = w.getLsbD 4) (h3 : s.tick = w.getLsbD 3)
    (h2 : s.stBit = w.getLsbD 2) (h1 : s.lastBit = w.getLsbD 1) (h0 : s.lastByte = w.getLsbD 0) : s.sel = w := by
  rw [State.sel_eq h4 h3 h2 h1 h0]
  clear h4 h3 h2 h1 h0
  revert w; decide

@[simp] theorem withTwoBytes_divisor (c : Circuit) : c.withTwoBytes.divisor = c.divisor := by
  unfold Circuit.withTwoBytes
  split <;> rfl

theorem length_le_withTwoBytes (c : Circuit) : c.length ≤ c.withTwoBytes.length := by
  unfold Circuit.withTwoBytes
  split
  · exact le_rfl
  · simp [Circuit.length]

section withSel
variable (s : State) (w : Sel)

@[simp] theorem withSel_divisor : (s.withSel w).circuit.divisor = s.circuit.divisor := by
  simp only [State.withSel]
  split <;> simp

theorem len_le_withSel : s.len ≤ (s.withSel w).len := by
  simp only [State.len, State.withSel]
  split
  · exact le_rfl
  · exact length_le_withTwoBytes _

theorem withSel_rst : (s.withSel w).rst = w.getLsbD 4 := by
  simp only [State.rst, State.input, State.inputAt, State.withSel]
  cases s.inputs with
  | nil => cases h : w.getLsbD 4 <;> simp [withRst, Inputs.idle]
  | cons i rest => rfl

theorem withSel_cnt :
    (s.withSel w).cnt = if w.getLsbD 3 then 0 else if s.cnt = 0 then s.circuit.divisor else s.cnt := by
  rw [← withSel_divisor s w]
  rfl

theorem withSel_st : (s.withSel w).st = if w.getLsbD 2 then .sendDone else .sendWait := rfl

theorem withSel_idx :
    (s.withSel w).idx = if w.getLsbD 1 then 9 else if w.getLsbD 2 ∨ s.idx = 9 then 0 else s.idx := rfl

theorem withSel_seq :
    (s.withSel w).seq = if w.getLsbD 0 then (s.withSel w).len - 1
      else if s.seq = (s.withSel w).len - 1 then 0 else s.seq := rfl

theorem two_le_withSel_len (h : w.getLsbD 0 = false) : 2 ≤ (s.withSel w).len := by
  simp only [State.len, State.withSel, h, Bool.false_eq_true, if_false]
  exact s.circuit.two_le_withTwoBytes

/-- The word placed is the word the next edge reads: each of the five signals is its bit. -/
theorem withSel_sel : (s.withSel w).sel = w := by
  have hN := s.circuit.divisor_pos
  refine sel_eq_of_signals (withSel_rst s w) ?tick ?st ?lastBit ?lastByte
  case tick =>
    cases h : w.getLsbD 3
    · rw [tick_eq_false_iff, withSel_cnt, h, if_neg Bool.false_ne_true]
      split_ifs <;> omega
    · rw [tick_eq_true_iff, withSel_cnt, h, if_pos rfl]
  case st =>
    rw [State.stBit, withSel_st]
    cases w.getLsbD 2 <;> rfl
  case lastBit =>
    cases h : w.getLsbD 1
    · rw [lastBit_eq_false_iff, withSel_idx, h, if_neg Bool.false_ne_true]
      split_ifs <;> omega
    · rw [lastBit_eq_true_iff, withSel_idx, h, if_pos rfl]
  case lastByte =>
    cases h : w.getLsbD 0
    · have := two_le_withSel_len s w h
      rw [lastByte_eq_false_iff, withSel_seq, h, if_neg Bool.false_ne_true]
      split_ifs <;> omega
    · rw [lastByte_eq_true_iff, withSel_seq, h, if_pos rfl]

/-- Placing a word keeps `Inv`, unless the word says SEND_DONE with `idx = 9`. -/
theorem withSel_inv (hi : s.Inv) (hw : w.getLsbD 2 = true → w.getLsbD 1 = false) : (s.withSel w).Inv := by
  obtain ⟨hcnt, hidx, hseq, -⟩ := hi
  have hlen := len_le_withSel s w
  refine ⟨?cnt, ?idx, ?seq, ?done⟩
  case cnt =>
    rw [withSel_cnt, withSel_divisor]
    split_ifs <;> omega
  case idx =>
    rw [withSel_idx]
    split_ifs <;> omega
  case seq =>
    rw [withSel_seq]
    split_ifs <;> omega
  case done =>
    intro hdone
    rw [withSel_st] at hdone
    have h2 : w.getLsbD 2 = true := by
      by_contra h
      simp only [if_neg h, reduceCtorEq] at hdone
    rw [withSel_idx, hw h2, if_neg Bool.false_ne_true, if_pos (.inl h2)]

end withSel

theorem lastBit_eq_false_of_not_x11x :
    ∀ w : Sel, w &&& 0b00110 ≠ 0b00110 → w.getLsbD 2 = true → w.getLsbD 1 = false := by
  decide

/-- Settles O6: each signal of the placed state is its bit of the word, and the registers placed stay within `Inv`. -/
theorem fetchWordIsSelected : Obligations.FetchWordIsSelected := by
  intro s w hw
  have hplaced : s.withFetchWord 8 w = s.withSel (BitVec.ofNat 5 w) := by
    rw [State.withFetchWord, Nat.mod_eq_of_lt (by omega)]
  rw [hplaced]
  exact ⟨withSel_sel s _, fun hi hne => withSel_inv s _ hi (lastBit_eq_false_of_not_x11x _ hne)⟩

end Sys2Proof.Proofs
end

section
/-! PROOFS. The operations of 40_clock_divider.md to 70_reset_and_hazards.md and the edge that runs two of them: when
each runs or is refused, the registers it writes, and that the two of an edge run together or are refused together. -/

namespace Sys2Proof.Proofs

open Machine

/-! ### When an operation runs and when it is refused (R47, D9; logs 7 and 8) -/

section refusals
variable {s : State} {i : Instr}

theorem perform_eq_refused_of_not_inv (hi : ¬ s.Inv) (after : State) :
    s.perform i after = .refused .unreachableState := if_neg hi

theorem perform_eq_refused_of_not_selects (hi : s.Inv) (hsel : i.selects s.sel = false) (after : State) :
    s.perform i after = .refused .notSelected := by
  simp [State.perform, hsel, if_pos hi]

theorem exec_eq_refused_of_not_inv (hne : i ≠ .reset) (hi : ¬ s.Inv) : exec i s = .refused .unreachableState := by
  cases i with
  | reset => exact absurd rfl hne
  | shiftBit =>
    simp only [exec, execShiftBit]
    split
    · exact perform_eq_refused_of_not_inv hi _
    · rfl
  | shiftStop =>
    simp only [exec, execShiftStop]
    split
    · exact perform_eq_refused_of_not_inv hi _
    · rfl
  | divDec | divReload | seqHold | doneAdvance | doneHalt => exact perform_eq_refused_of_not_inv hi _

theorem exec_reset_eq_refused (hr : s.rst = false) : exec .reset s = .refused .notSelected := by
  simp [exec, execReset, State.performReset, selects_reset, hr]

theorem exec_eq_refused_of_not_selects (hi : s.Inv) (hsel : i.selects s.sel = false) :
    exec i s = .refused .notSelected := by
  cases i with
  | reset => exact exec_reset_eq_refused (by rwa [selects_reset] at hsel)
  | shiftBit =>
    obtain ⟨v, hv⟩ := hi.frameBit_isSome s.idx
    simpa [exec, execShiftBit, hv] using perform_eq_refused_of_not_selects hi hsel _
  | shiftStop =>
    simpa [exec, execShiftStop, hi.frameBit_stop] using perform_eq_refused_of_not_selects hi hsel _
  | divDec | divReload | seqHold | doneAdvance | doneHalt => exact perform_eq_refused_of_not_selects hi hsel _

theorem exec_completes_iff (hne : i ≠ .reset) : (∃ t, exec i s = .next t) ↔ s.Inv ∧ i.selects s.sel = true := by
  refine ⟨fun ⟨t, ht⟩ => ?_, fun ⟨hi, hsel⟩ => exec_eq_next_of_selects hi hsel⟩
  by_cases hi : s.Inv
  · cases hsel : i.selects s.sel
    · simp [exec_eq_refused_of_not_selects hi hsel] at ht
    · exact ⟨hi, rfl⟩
  · simp [exec_eq_refused_of_not_inv hne hi] at ht

theorem exec_reset_completes_iff : (∃ t, exec .reset s = .next t) ↔ s.rst = true :=
  ⟨fun ⟨_, ht⟩ => ((s.performReset_eq_next_iff _ _).mp ht).1,
    fun hr => ⟨_, (s.performReset_eq_next_iff _ _).mpr ⟨hr, rfl⟩⟩⟩

end refusals

/-- Settles O15: an operation other than RESET is refused outside `Inv`, is refused under `Inv` where it is not
selected, and runs in the remaining case; RESET asks for `rst` alone. -/
theorem operationsRunOrAreRefused : Obligations.OperationsRunOrAreRefused :=
  ⟨fun _ _ => exec_eq_refused_of_not_inv, fun _ _ => exec_eq_refused_of_not_selects, fun _ => exec_reset_eq_refused,
    fun _ _ => exec_completes_iff, fun _ => exec_reset_completes_iff⟩

/-! ### What an operation writes (R26) -/

/-- Everything an operation can do: if it answers next `t`, then `t` is the state with the operation's writes. -/
theorem exec_next_cases {i : Instr} {s t : State} (h : exec i s = .next t) :
    (i = .reset ∧ t = s.engineReset)
    ∨ (i = .divDec ∧ t = s.setCnt (s.cnt - 1))
    ∨ (i = .divReload ∧ t = s.setCnt s.circuit.divisor)
    ∨ ((i = .seqHold ∨ i = .doneHalt) ∧ t = s)
    ∨ (i = .shiftBit ∧ ∃ v, t = (s.setTx v).setIdx (s.idx + 1))
    ∨ (i = .shiftStop ∧ ∃ v, t = ((s.setTx v).setIdx 0).setSt .sendDone)
    ∨ (i = .doneAdvance ∧ t = (s.setSeq (s.seq + 1)).setSt .sendWait) := by
  cases i with
  | reset =>
    obtain ⟨-, rfl⟩ := (s.performReset_eq_next_iff _ _).mp h
    exact .inl ⟨rfl, rfl⟩
  | shiftBit =>
    simp only [exec, execShiftBit] at h
    split at h
    · obtain ⟨-, -, rfl⟩ := (s.perform_eq_next_iff _ _ _).mp h
      exact .inr (.inr (.inr (.inr (.inl ⟨rfl, _, rfl⟩))))
    · cases h
  | shiftStop =>
    simp only [exec, execShiftStop] at h
    split at h
    · obtain ⟨-, -, rfl⟩ := (s.perform_eq_next_iff _ _ _).mp h
      exact .inr (.inr (.inr (.inr (.inr (.inl ⟨rfl, _, rfl⟩)))))
    · cases h
  | divDec | divReload | seqHold | doneAdvance | doneHalt =>
    obtain ⟨-, -, rfl⟩ := (s.perform_eq_next_iff _ _ _).mp h
    simp

/-- Settles O16: read off the writes of each operation; the buffer is part of the circuit. -/
theorem operationsWriteOnlyTheirRegisters : Obligations.OperationsWriteOnlyTheirRegisters := by
  intro i s t h
  obtain ⟨rfl, rfl⟩ | ⟨rfl, rfl⟩ | ⟨rfl, rfl⟩ | ⟨rfl | rfl, rfl⟩ | ⟨rfl, v, rfl⟩ | ⟨rfl, v, rfl⟩ | ⟨rfl, rfl⟩ :=
    exec_next_cases h <;> simp [State.SameSurroundings, State.engineReset, State.memRead]

/-! ### The two operations of an edge (R69) -/

section edge
variable {s : State} {ops : EdgeOps} (hd : decodeEdge s.sel = .ok ops)
include hd

/-- Where the divider's operation of an edge runs, so does the sequencer's. -/
theorem exec_sequencer_completes {d : State} (h : exec ops.divider s = .next d) :
    ∃ q, exec ops.sequencer s = .next q := by
  obtain ⟨rfl, -⟩ | ⟨hne, -, -, hsel⟩ := decodeEdge_ok_cases hd
  · exact ⟨d, h⟩
  · obtain ⟨hi, -⟩ := (exec_completes_iff hne).mp ⟨d, h⟩
    exact exec_eq_next_of_selects hi hsel

/-- Where the divider's operation of an edge is refused, so is the sequencer's, for the same reason. -/
theorem exec_sequencer_refused {r : Refusal} (h : exec ops.divider s = .refused r) :
    exec ops.sequencer s = .refused r := by
  obtain ⟨rfl, -⟩ | ⟨hne, hne', hsel, -⟩ := decodeEdge_ok_cases hd
  · exact h
  · have hi : ¬ s.Inv := fun hi => by
      obtain ⟨d, hnext⟩ := exec_eq_next_of_selects hi hsel
      simp [hnext] at h
    rw [exec_eq_refused_of_not_inv hne' hi, ← exec_eq_refused_of_not_inv hne hi, h]

theorem step_eq_commitEdge : step s = s.commitEdge (exec ops.divider s) (exec ops.sequencer s) := by
  simp only [step, hd]

end edge

theorem step_eq_refused_of_decodeEdge_error {s : State} {e : Reject} (h : decodeEdge s.sel = .error e) :
    step s = .refused .unreachableState := by
  simp only [step, h]

/-- Settles O17: a step commits the two decoded operations. Both are RESET, or both are selected by the word and then
`Inv` alone decides whether they run. -/
theorem stepRunsDecodedOperations : Obligations.StepRunsDecodedOperations := by
  refine fun s => ⟨fun ops d q hd hdiv hseq => ?runs, fun ops d hd hdiv => exec_sequencer_completes hd hdiv,
    fun ops r hd hdiv => ⟨exec_sequencer_refused hd hdiv, ?refused⟩, fun e => step_eq_refused_of_decodeEdge_error⟩
  case runs =>
    rw [step_eq_commitEdge hd, hdiv, hseq]
    rfl
  case refused =>
    rw [step_eq_commitEdge hd, hdiv]
    rfl

/-- Settles O19: without reset the divider's decoded operation is not RESET, so outside `Inv` it is refused, and the
step with it; a word without a sequencer operation is refused the same way. -/
theorem stepRefusesUnreachableStates : Obligations.StepRefusesUnreachableStates := by
  intro s hr hi
  cases hd : decodeEdge s.sel with
  | error e => exact step_eq_refused_of_decodeEdge_error hd
  | ok ops =>
    obtain ⟨-, hrst⟩ | ⟨hne, -⟩ := decodeEdge_ok_cases hd
    · simp [hr] at hrst
    · rw [step_eq_commitEdge hd, exec_eq_refused_of_not_inv hne hi]
      rfl

/-! ### The whole next state of the operations that write no frame bit -/

/-- Settles O11: the word `01100` says a tick in SEND_DONE below the last byte, where `Inv` gives `idx = 0`. -/
theorem doneAdvanceMovesToNextByte : Obligations.DoneAdvanceMovesToNextByte := by
  intro s hi hw
  have hsel : Instr.doneAdvance.selects s.sel = true := by rw [hw]; decide
  obtain ⟨hr, htick, hdone, -, hne⟩ := (selects_doneAdvance_iff s).mp hsel
  have ⟨_, _, hle, _⟩ := hi
  exact ⟨hr, htick, hdone, idx_eq_zero_of_sendDone hi hdone, by omega, by omega, perform_eq_next hi hsel _⟩

/-- Settles O12: the word `01101` says a tick in SEND_DONE at the last byte. -/
theorem doneHaltWritesNothing : Obligations.DoneHaltWritesNothing := by
  intro s hi hw
  have hsel : Instr.doneHalt.selects s.sel = true := by rw [hw]; decide
  obtain ⟨hr, htick, hdone, -, hlast⟩ := (selects_doneHalt_iff s).mp hsel
  exact ⟨hr, htick, ⟨hdone, hlast⟩, idx_eq_zero_of_sendDone hi hdone, perform_eq_next hi hsel _⟩

/-- Settles O13: the word `00xxx` says an edge without reset and without a tick. -/
theorem seqHoldWritesNothing : Obligations.SeqHoldWritesNothing := by
  intro s hi hw
  have hsel : Instr.seqHold.selects s.sel = true := (selects_iff _ _).mpr hw
  obtain ⟨hr, hc⟩ := (selects_seqHold_iff s).mp hsel
  exact ⟨hr, (tick_eq_false_iff s).mpr hc, perform_eq_next hi hsel _⟩

/-- Settles O14: the word `1xxxx` says `rst = 1`, which is all that RESET asks for. -/
theorem resetWritesResetValues : Obligations.ResetWritesResetValues := by
  intro s hw
  have hr : s.rst = true := (selects_reset s).symm.trans ((selects_iff .reset _).mpr hw)
  exact ⟨hr, (s.performReset_eq_next_iff _ _).mpr ⟨hr, rfl⟩⟩

end Sys2Proof.Proofs
end

section
/-! PROOFS. The constants and the registers they bound, of 00_scope.md to 20_memory.md: the reset state, the register
widths, and the buffer that no run changes. -/

namespace Sys2Proof.Proofs

open Machine

/-! ### The reset state (R90) -/

theorem lineInv_of_inReset {s : State} (h : s.InReset) : s.LineInv := by
  obtain ⟨hcnt, hidx, hst, hseq, htx⟩ := h
  simp [State.LineInv, State.Inv, hcnt, hidx, hst, hseq, htx]

theorem start_inReset (c : Circuit) (ins : List Inputs) : (State.start c ins).InReset :=
  ⟨rfl, rfl, rfl, rfl, rfl⟩

theorem start_companionsInRange (c : Circuit) (ins : List Inputs) : (State.start c ins).CompanionsInRange :=
  ⟨Nat.zero_le _, Nat.zero_le _⟩

theorem tick_eq_false_of_inReset {s : State} (h : s.InReset) : s.tick = false := by
  have hN := s.circuit.divisor_pos
  obtain ⟨hcnt, -⟩ := h
  rw [tick_eq_false_iff]
  omega

/-- Settles O24: the start state holds the reset values, which imply the invariants, and its countdown is at N, which is
not 0. -/
theorem resetStateIsSafe : Obligations.ResetStateIsSafe := by
  refine ⟨fun c ins => ?_, Circuit.example, rfl, rfl, rfl⟩
  have hreset := start_inReset c ins
  exact ⟨hreset, tick_eq_false_of_inReset hreset, ⟨lineInv_of_inReset hreset, start_companionsInRange c ins⟩,
    rfl, rfl, rfl, rfl⟩

/-! ### Register widths (R5, D8) -/

theorem le_two_pow_ceilLog2 (n : Nat) : n ≤ 2 ^ ceilLog2 n := by
  unfold ceilLog2
  split
  · simpa
  · have := Nat.lt_log2_self (n := n - 1)
    omega

theorem two_pow_ceilLog2_sub_one_lt {n : Nat} (h : 2 ≤ n) : 2 ^ (ceilLog2 n - 1) < n := by
  have hlog := Nat.log2_self_le (n := n - 1) (by omega)
  rw [ceilLog2, if_neg (by omega), Nat.add_sub_cancel]
  omega

theorem length_le_two_pow_seqWidth (c : Circuit) : c.length ≤ 2 ^ c.seqWidth :=
  (le_two_pow_ceilLog2 c.length).trans (Nat.pow_le_pow_right (by decide) (le_max_right _ _))

/-- Settles O25: W_CNT is the ceiling of log2(N + 1), so it holds N and no smaller width does; W_SEQ holds L; the
registers are bounded by N, 9 and L - 1. -/
theorem registersFitTheirWidths : Obligations.RegistersFitTheirWidths := by
  rintro s ⟨hcnt, hidx, hseq, -⟩
  have hN := s.circuit.divisor_pos
  have hL := s.circuit.one_le_length
  have hfits : s.circuit.divisor + 1 ≤ 2 ^ s.circuit.cntWidth := le_two_pow_ceilLog2 _
  have hleast : 2 ^ (s.circuit.cntWidth - 1) < s.circuit.divisor + 1 := two_pow_ceilLog2_sub_one_lt (by omega)
  have hwidth := length_le_two_pow_seqWidth s.circuit
  simp only [State.len] at hseq
  refine ⟨by omega, by omega, by omega, ?_, by omega⟩
  calc s.idx ≤ 9 := hidx
    _ < 2 ^ idxWidth := by decide

/-! ### The buffer (R23, R28) -/

theorem memRead_run {n : Nat} {s t : State} (h : run n s = .next t) (i : Nat) : t.memRead i = s.memRead i := by
  simp only [State.memRead, run_circuit h]

/-- Settles O26: a read in canonical form gives the cell at its position, and no run changes the circuit, of which the
buffer is a part. -/
theorem bufferReadsAreConstant : Obligations.BufferReadsAreConstant :=
  ⟨fun s i => Memory.read_eq s.circuit.buf_wf i, fun s _ hi => s.circuit.read_isSome hi,
    fun _ _ _ h => ⟨run_circuit h, memRead_run h⟩⟩

end Sys2Proof.Proofs
end

section
/-! PROOFS. Between ticks, of 40_clock_divider.md and 41_frame_shifter.md: a countdown changes nothing but `cnt`, so the
line and the byte being sent move at ticks alone. -/

namespace Sys2Proof.Proofs

open Machine

/-! ### A countdown (R50, R64) -/

theorem step_countdown {s t : State} (hr : s.rst = false) (hc : s.cnt ≠ 0) (h : step s = .next t) :
    t.SameEngine { s with cnt := s.cnt - 1 } := by
  obtain ⟨hrst, -⟩ | ⟨-, -, hcases⟩ := step_next_cases h
  · simp [hr] at hrst
  obtain ⟨-, rfl⟩ | ⟨h0, -⟩ | ⟨h0, -⟩ | ⟨h0, -⟩ | ⟨h0, -⟩ := hcases
  · exact ⟨rfl, rfl, rfl, rfl, rfl, rfl, rfl⟩
  all_goals exact absurd h0 hc

/-- Until the countdown is over the engine holds: a run of at most `cnt` edges changes `cnt` alone. -/
theorem run_countdown {n : Nat} {s t : State} (hn : n ≤ s.cnt) (hr : s.NoReset n) (h : run n s = .next t) :
    t.SameEngine { s with cnt := s.cnt - n } := by
  induction n generalizing s with
  | zero =>
    cases h
    exact ⟨rfl, rfl, rfl, rfl, rfl, rfl, rfl⟩
  | succ n ih =>
    obtain ⟨u, hu, hrun⟩ := run_succ_next h
    obtain ⟨hN, hbuf, hcnt, hidx, hst, hseq, htx⟩ :=
      step_countdown (rst_eq_false_of_noReset hr) (by omega) hu
    have hnear : n ≤ u.cnt := by
      simp only [hcnt]
      omega
    obtain ⟨hN', hbuf', hcnt', hidx', hst', hseq', htx'⟩ := ih hnear (noReset_of_step hr hu) hrun
    refine ⟨hN'.trans hN, hbuf'.trans hbuf, hcnt'.trans ?_, hidx'.trans hidx, hst'.trans hst, hseq'.trans hseq,
      htx'.trans htx⟩
    simp only [hcnt]
    omega

/-- Settles O29: `cnt - c` edges of a countdown from `cnt` leave it at `c` and the engine otherwise as it was. -/
theorem dividerPhaseIsOnlyTiming : Obligations.DividerPhaseIsOnlyTiming := by
  intro s c hi hc hr
  obtain ⟨t, ht⟩ := run_eq_next_of_inv (s.cnt - c) hi
  have hsame := run_countdown (Nat.sub_le _ _) hr ht
  rw [Nat.sub_sub_self hc] at hsame
  exact ⟨t, ht, hsame⟩

/-- Settles O33: the line changes at a tick in SEND_WAIT alone, which is a shift and reloads N, so the next N edges are
a countdown. -/
theorem lineHoldsForBitPeriod : Obligations.LineHoldsForBitPeriod := by
  intro s t h hne
  obtain ⟨hrst, -⟩ | ⟨hi, hr, -⟩ := step_next_cases h
  · exact .inl hrst
  have htick : s.cnt = 0 ∧ s.st = .sendWait := by
    by_contra hno
    have htx := step_tx_eq h
    simp only [hr, if_neg hno, Bool.false_eq_true, if_false, Option.some.injEq] at htx
    exact hne htx
  obtain ⟨hc, hwait⟩ := htick
  refine .inr ⟨?shift, fun n hn hr' => ?hold⟩
  case shift =>
    by_cases hlast : s.idx = 9
    · exact .inr (decodeSequencer_eq_of_selects (by decide)
        ((selects_shiftStop_iff s).mpr ⟨hr, (tick_eq_true_iff s).mpr hc, hwait, hlast⟩))
    · exact .inl (decodeSequencer_eq_of_selects (by decide)
        ((selects_shiftBit_iff s).mpr ⟨hr, (tick_eq_true_iff s).mpr hc, hwait, hlast⟩))
  case hold =>
    have hcnt : t.cnt = s.circuit.divisor := by simp [step_cnt h, hc]
    obtain ⟨u, hu⟩ := run_eq_next_of_inv n (step_inv hi h)
    obtain ⟨-, -, -, -, -, -, htx⟩ := run_countdown (hcnt ▸ hn) hr' hu
    exact ⟨u, hu, htx⟩

/-- Settles O30: `seq` moves at a tick in SEND_DONE alone, and the frame is a function of the circuit and `seq`. -/
theorem byteIsStableDuringFrame : Obligations.ByteIsStableDuringFrame := by
  intro s t hr h
  have hmoves : t.seq ≠ s.seq → s.st = .sendDone ∧ s.tick = true := fun hne => by
    rw [tick_eq_true_iff]
    by_contra hno
    exact hne (by rw [step_seq_eq h, if_neg (by simp [hr]), if_neg (by tauto)])
  refine ⟨fun hwait => ?_, hmoves⟩
  have hseq : t.seq = s.seq := by
    by_contra hne
    simpa [hwait] using (hmoves hne).1
  exact ⟨hseq, frameBit_eq_of_seq_eq (step_surroundings h).1 hseq⟩

end Sys2Proof.Proofs
end

section
/-! PROOFS. Time, of 43_edge_step.md: after any run without reset the phase of the divider and the position in the
message are those of elapsed time, and every tick and schedule is read off them. -/

namespace Sys2Proof.Proofs

open Machine

/-! ### Phase and position -/

/-- The phase of the divider: the cycles since its last reload. -/
def phase (s : State) : Nat := s.circuit.divisor - s.cnt

/-- The position in the message, in bit periods since byte 0's frame began: eleven for each byte sent, of which ten
drive a bit and one is the idle period between frames (R66, R72). -/
def position (s : State) : Nat :=
  11 * s.seq + match s.st with
    | .sendWait => s.idx
    | .sendDone => 10

/-- The position of the terminal state (R67). -/
def lastPosition (s : State) : Nat := 11 * s.len - 1

theorem position_of_sendWait {s : State} (h : s.st = .sendWait) : position s = 11 * s.seq + s.idx := by
  simp [position, h]

theorem position_of_sendDone {s : State} (h : s.st = .sendDone) : position s = 11 * s.seq + 10 := by
  simp [position, h]

section read
variable {s : State} (hi : s.Inv)
include hi

theorem phase_lt_bitPeriod : phase s < s.circuit.bitPeriod := by
  simp only [phase, Circuit.bitPeriod]
  omega

theorem phase_add_cnt : phase s + s.cnt = s.circuit.divisor := Nat.sub_add_cancel hi.1

theorem position_bounds : 11 * s.seq ≤ position s ∧ position s ≤ 11 * s.seq + 10 := by
  obtain ⟨-, hidx, -⟩ := hi
  cases hst : s.st
  · rw [position_of_sendWait hst]
    omega
  · rw [position_of_sendDone hst]
    omega

theorem position_le : position s ≤ lastPosition s := by
  have hL : 1 ≤ s.len := s.circuit.one_le_length
  obtain ⟨-, hle⟩ := position_bounds hi
  obtain ⟨-, -, hseq, -⟩ := hi
  rw [lastPosition]
  omega

/-- Positions 0 to 9 of byte `j` are SEND_WAIT before frame bits 0 to 9. -/
theorem position_eq_wait_iff {j r : Nat} (hr : r ≤ 9) :
    position s = 11 * j + r ↔ s.st = .sendWait ∧ s.seq = j ∧ s.idx = r := by
  obtain ⟨-, hidx, -⟩ := hi
  cases hst : s.st
  · rw [position_of_sendWait hst]
    simp only [true_and]
    omega
  · rw [position_of_sendDone hst]
    simp only [reduceCtorEq, false_and, iff_false]
    omega

/-- Position 10 of byte `j` is SEND_DONE. -/
theorem position_eq_done_iff {j : Nat} : position s = 11 * j + 10 ↔ s.st = .sendDone ∧ s.seq = j := by
  obtain ⟨-, hidx, -⟩ := hi
  cases hst : s.st
  · rw [position_of_sendWait hst]
    simp only [reduceCtorEq, false_and, iff_false]
    omega
  · rw [position_of_sendDone hst]
    simp only [true_and]
    omega

end read

/-- The terminal state is the last position. -/
theorem terminal_iff_position {s : State} (hi : s.Inv) : s.Terminal ↔ position s = lastPosition s := by
  have hL : 1 ≤ s.len := s.circuit.one_le_length
  have hlast : lastPosition s = 11 * (s.len - 1) + 10 := by
    rw [lastPosition]
    omega
  rw [hlast, position_eq_done_iff hi]

/-- A tick moves the position on by one, up to the terminal state. -/
theorem step_position_of_tick {s t : State} (hi : s.Inv) (hr : s.rst = false) (hc : s.cnt = 0)
    (h : step s = .next t) : position t = min (position s + 1) (lastPosition s) := by
  have hL : 1 ≤ s.len := s.circuit.one_le_length
  obtain ⟨-, hidx, hseq, -⟩ := hi
  unfold lastPosition
  obtain ⟨hrst, -⟩ | ⟨-, -, hcases⟩ := step_next_cases h
  · simp [hr] at hrst
  obtain ⟨hne, -⟩ | ⟨-, hst, hlt, v, -, rfl⟩ | ⟨-, hst, h9, rfl⟩ | ⟨-, hst, h0, hlt, rfl⟩ | ⟨-, hst, -, hlast, rfl⟩ :=
    hcases
  · exact absurd hc hne
  · rw [position_of_sendWait (s := s) hst, position_of_sendWait (by simpa using hst)]
    change 11 * s.seq + (s.idx + 1) = _
    omega
  · rw [position_of_sendWait (s := s) hst, position_of_sendDone rfl]
    change 11 * s.seq + 10 = _
    omega
  · rw [position_of_sendDone (s := s) hst, position_of_sendWait rfl]
    change 11 * (s.seq + 1) + s.idx = _
    omega
  · rw [position_of_sendDone (s := s) hst, position_of_sendDone (by simpa using hst)]
    change 11 * s.seq + 10 = _
    omega

/-- One edge without reset is one cycle, which the phase counts modulo the bit period and the position in whole
bit periods, up to the terminal state. -/
theorem step_phase_position {s t : State} (hi : s.Inv) (hr : s.rst = false) (h : step s = .next t) :
    ∃ k, phase t + k * s.circuit.bitPeriod = phase s + 1
      ∧ position t = min (position s + k) (lastPosition s) := by
  have hphase := phase_add_cnt hi
  have hcnt := step_cnt h
  have hcirc := (step_surroundings h).1
  by_cases hc : s.cnt = 0
  · refine ⟨1, ?_, step_position_of_tick hi hr hc h⟩
    simp only [hr, hc, Bool.false_eq_true, or_true, if_true] at hcnt
    simp only [phase, Circuit.bitPeriod, hcirc, hcnt, hc]
    omega
  · have hle := position_le hi
    simp only [hr, hc, Bool.false_eq_true, or_false, if_false] at hcnt
    refine ⟨0, ?_, ?_⟩
    · simp only [phase, hcirc, hcnt] at *
      omega
    · have hsame : position t = position s := by
        simp [position, step_st_eq h, step_seq_eq h, step_idx_eq h, hr, hc]
      omega

/-- The cycles of a run without reset, counted by phase and position. -/
theorem run_phase_position {n : Nat} {s t : State} (hi : s.Inv) (hr : s.NoReset n) (h : run n s = .next t) :
    ∃ k, phase t + k * s.circuit.bitPeriod = phase s + n
      ∧ position t = min (position s + k) (lastPosition s) := by
  induction n generalizing s with
  | zero =>
    cases h
    exact ⟨0, by simp, by simpa using position_le hi⟩
  | succ n ih =>
    obtain ⟨u, hu, hrun⟩ := run_succ_next h
    obtain ⟨k, hk, hpos⟩ := step_phase_position hi (rst_eq_false_of_noReset hr) hu
    obtain ⟨m, hm, hpos'⟩ := ih (step_inv hi hu) (noReset_of_step hr hu) hrun
    have hcirc := (step_surroundings hu).1
    have hlast : lastPosition u = lastPosition s := by simp only [lastPosition, State.len, hcirc]
    rw [hcirc] at hm
    refine ⟨m + k, ?_, ?_⟩
    · rw [Nat.add_mul]
      omega
    · omega

section run
variable {n : Nat} {s t : State} (hi : s.Inv) (hr : s.NoReset n) (h : run n s = .next t)
include hi hr h

/-- The phase after a run without reset (R52). -/
theorem run_phase : phase t = (phase s + n) % s.circuit.bitPeriod := by
  obtain ⟨k, hk, -⟩ := run_phase_position hi hr h
  have hlt := phase_lt_bitPeriod (run_inv hi h)
  rw [run_circuit h] at hlt
  rw [← hk, Nat.add_mul_mod_self_right, Nat.mod_eq_of_lt hlt]

/-- The position after a run without reset: one further for each bit period begun, up to the terminal state (R72). -/
theorem run_position :
    position t = min (position s + (phase s + n) / s.circuit.bitPeriod) (lastPosition s) := by
  obtain ⟨k, hk, hpos⟩ := run_phase_position hi hr h
  have hlt := phase_lt_bitPeriod (run_inv hi h)
  rw [run_circuit h] at hlt
  have hP : 0 < s.circuit.bitPeriod := Nat.succ_pos _
  rw [← hk, Nat.add_mul_div_right _ _ hP, Nat.div_eq_of_lt hlt, Nat.zero_add, hpos]

end run

/-! ### Ticks -/

/-- A tick is the last cycle of a bit period. -/
theorem tick_iff_phase {s : State} (hi : s.Inv) : s.tick = true ↔ phase s + 1 = s.circuit.bitPeriod := by
  have hphase := phase_add_cnt hi
  rw [tick_eq_true_iff, Circuit.bitPeriod]
  omega

/-- Settles O28: the phase counts the cycles modulo the bit period, and a tick is at the last phase. -/
theorem ticksAreEveryBitPeriod : Obligations.TicksAreEveryBitPeriod := by
  intro s n hi hr
  obtain ⟨t, ht⟩ := run_eq_next_of_inv n hi
  obtain ⟨k, hk, -⟩ := run_phase_position hi hr ht
  have hti := run_inv hi ht
  have hphase := phase_add_cnt hi
  have hP : s.circuit.bitPeriod = s.circuit.divisor + 1 := rfl
  refine ⟨t, ht, ?_⟩
  rw [tick_iff_phase hti, run_circuit ht]
  constructor
  · intro hlast
    exact ⟨k, by omega⟩
  · rintro ⟨m, hm⟩
    have hcycles : phase s + n = s.circuit.divisor + m * s.circuit.bitPeriod := by omega
    rw [run_phase hi hr ht, hcycles, Nat.add_mul_mod_self_right, Nat.mod_eq_of_lt (by omega), hP]

/-! ### The line, read off the position -/

section line
variable {s : State} (hs : s.LineInv)
include hs

/-- In positions 1 to 9 of byte `j` the line shows frame bits 0 to 8. -/
theorem tx_of_position_frame {j r : Nat} {b : Byte} (hr : r ≤ 8) (hb : s.memRead j = some b)
    (hpos : position s = 11 * j + (r + 1)) : s.tx = (frame b).getLsbD r := by
  obtain ⟨hi, -, hframe⟩ := hs
  obtain ⟨hst, hseq, hidx⟩ := (position_eq_wait_iff hi (by omega)).mp hpos
  have hbit := hframe ⟨hst, by omega⟩
  rw [hidx, Nat.add_sub_cancel, State.frameBit, hseq, hb] at hbit
  exact (Option.some.inj hbit).symm

/-- In position 10 of a byte, and in position 0 of the next, the line is at 1. -/
theorem tx_of_position_idle {j : Nat} (hpos : position s = 11 * j ∨ position s = 11 * j + 10) : s.tx = true := by
  obtain ⟨hi, hidle, -⟩ := hs
  obtain hpos | hpos := hpos
  · exact hidle (.inr ((position_eq_wait_iff hi (by omega)).mp hpos).2.2)
  · exact hidle (.inl ((position_eq_done_iff hi).mp hpos).1)

/-- In position 1 of byte `j` the start bit is out. -/
theorem start_bit_of_position {j : Nat} (hj : j < s.len) (hpos : position s = 11 * j + 1) :
    s.tx = false ∧ s.seq = j ∧ s.idx = 1 ∧ s.st = .sendWait := by
  obtain ⟨hst, hseq, hidx⟩ := (position_eq_wait_iff hs.1 (by decide)).mp hpos
  obtain ⟨b, hb⟩ := s.circuit.read_isSome hj
  exact ⟨(tx_of_position_frame hs (Nat.zero_le 8) hb hpos).trans (frame_start b), hseq, hidx, hst⟩

end line

/-- After the first tick in SEND_WAIT the line shows the bit driven last, whatever it showed before. -/
theorem lineInv_of_run_past_tick {n : Nat} {s t : State} (hi : s.Inv) (hwait : s.st = .sendWait) (hn : s.cnt < n)
    (hr : s.NoReset n) (h : run n s = .next t) : t.LineInv := by
  induction n generalizing s with
  | zero => omega
  | succ n ih =>
    obtain ⟨u, hu, hrun⟩ := run_succ_next h
    have hrst := rst_eq_false_of_noReset hr
    by_cases hc : s.cnt = 0
    · exact run_keeps step_lineInv (step_lineInv_of_shift hrst hc hwait hu) hrun
    · have hcnt : u.cnt = s.cnt - 1 := by simp [step_cnt hu, hrst, hc]
      exact ih (step_inv hi hu) (by simp [step_st_eq hu, hrst, hc, hwait]) (by omega) (noReset_of_step hr hu) hrun

/-! ### One frame, and the gap after it -/

/-- Settles O31: before the first tick the run is a countdown; in the bit period after tick `r` the position is `r + 1`
places into the frame, and the line shows the frame bit before it. -/
theorem frameGoesOutBitByBit : Obligations.FrameGoesOutBitByBit := by
  intro s b n hi hwait h0 hb hr
  obtain ⟨t, ht⟩ := run_eq_next_of_inv n hi
  have hti := run_inv hi ht
  refine ⟨t, ht, fun hn => ?countdown, fun r hr9 hlo hhi => ?bit⟩
  case countdown =>
    obtain ⟨-, -, -, hidx, hst, hseq, htx⟩ := run_countdown hn hr ht
    exact ⟨htx, hidx.trans h0, hst.trans hwait, hseq⟩
  case bit =>
    have hL : 1 ≤ s.len := s.circuit.one_le_length
    have hphase := phase_add_cnt hi
    have hperiods : (phase s + n) / s.circuit.bitPeriod = r + 1 := by
      refine Nat.div_eq_of_lt_le ?_ ?_ <;> simp only [Circuit.bitPeriod, Nat.add_mul] at * <;> omega
    have ⟨_, _, hseq, _⟩ := hi
    have hpos : position t = 11 * s.seq + (r + 1) := by
      rw [run_position hi hr ht, hperiods, position_of_sendWait hwait, h0, lastPosition]
      omega
    have hline : t.LineInv := lineInv_of_run_past_tick hi hwait (by omega) hr ht
    by_cases hlast : r = 9
    · subst hlast
      obtain ⟨hst, hseq'⟩ := (position_eq_done_iff hti).mp hpos
      have htx := tx_of_position_idle hline (.inr hpos)
      exact ⟨htx.trans (frame_stop b).symm, hseq', by simp [hst], by omega, fun _ => idx_eq_zero_of_sendDone hti hst⟩
    · obtain ⟨hst, hseq', hidx⟩ := (position_eq_wait_iff hti (by omega)).mp hpos
      have htx := tx_of_position_frame hline (by omega) ((memRead_run ht _).trans hb) hpos
      exact ⟨htx, hseq', by simp [hst, hlast], fun _ => hidx, by omega⟩

/-- Settles O32: the stop bit is position 10 of its byte and the idle period position 0 of the next, both with the line
at 1; one bit period later the start bit is out. -/
theorem interFrameGapIsOneBitPeriod : Obligations.InterFrameGapIsOneBitPeriod := by
  intro s n hi hw hlt hr
  have hsel : Instr.shiftStop.selects s.sel = true := (selects_iff _ _).mpr hw
  obtain ⟨-, htick, hwait, h9⟩ := (selects_shiftStop_iff s).mp hsel
  have hc : s.cnt = 0 := (tick_eq_true_iff s).mp htick
  have hphase := phase_add_cnt hi
  obtain ⟨t, ht⟩ := run_eq_next_of_inv n hi
  have hti := run_inv hi ht
  have hline : 1 ≤ n → t.LineInv := fun hn => lineInv_of_run_past_tick hi hwait (by omega) hr ht
  have hL : 1 ≤ s.len := s.circuit.one_le_length
  have hP : s.circuit.bitPeriod = s.circuit.divisor + 1 := rfl
  have hP' : 0 < s.circuit.bitPeriod := Nat.succ_pos _
  have hpos := run_position hi hr ht
  rw [position_of_sendWait hwait, h9, lastPosition] at hpos
  refine ⟨fun h1 hn => ⟨t, ht, ?gap⟩, fun hn => ⟨t, ht, ?start⟩⟩
  case gap =>
    have hlo : 1 ≤ (phase s + n) / s.circuit.bitPeriod := (Nat.le_div_iff_mul_le hP').mpr (by omega)
    have hhi : (phase s + n) / s.circuit.bitPeriod < 3 := (Nat.div_lt_iff_lt_mul hP').mpr (by omega)
    obtain hstop | hidle : position t = 11 * s.seq + 10 ∨ position t = 11 * (s.seq + 1) := by omega
    · exact tx_of_position_idle (hline h1) (.inr hstop)
    · exact tx_of_position_idle (hline h1) (.inl hidle)
  case start =>
    have hperiods : (phase s + n) / s.circuit.bitPeriod = 3 := Nat.div_eq_of_lt_le (by omega) (by omega)
    have hlen : t.len = s.len := congrArg Circuit.length (run_circuit ht)
    exact start_bit_of_position (hline (by omega)) (by omega) (by omega)

/-! ### The schedules from reset (R71, R72) -/

/-- From reset the position is the number of whole bit periods, up to the terminal state. -/
theorem run_start_position {c : Circuit} {ins : List Inputs} {n : Nat} {t : State}
    (hr : (State.start c ins).NoReset n) (h : run n (State.start c ins) = .next t) :
    position t = min (n / c.bitPeriod) (11 * c.length - 1) := by
  have hpos := run_position (start_inv c ins) hr h
  simpa [position, phase, lastPosition, State.len] using hpos

/-- Settles O36: the position in cycle `n` is the number of whole bit periods before it, and the line is that of the
position. -/
theorem lineScheduleFromReset : Obligations.LineScheduleFromReset := by
  intro c ins n hr
  have hL := c.one_le_length
  obtain ⟨t, ht⟩ := run_eq_next_of_inv n (start_inv c ins)
  have hpos := run_start_position hr ht
  have hline : t.LineInv := run_keeps step_lineInv (lineInv_of_inReset (start_inReset c ins)) ht
  have hP : 0 < c.bitPeriod := Nat.succ_pos _
  refine ⟨t, ht, fun hn => ?before, fun j r b hj hr8 hb hlo hhi => ?bit, fun j hj hlo hhi => ?gap, fun hlo => ?after⟩
  case before =>
    rw [Nat.div_eq_of_lt hn] at hpos
    exact tx_of_position_idle hline (j := 0) (.inl (by omega))
  all_goals rw [← Nat.le_div_iff_mul_le hP] at hlo
  case bit =>
    rw [← Nat.div_lt_iff_lt_mul hP] at hhi
    exact tx_of_position_frame hline hr8 ((memRead_run ht j).trans hb) (by omega)
  case gap =>
    rw [← Nat.div_lt_iff_lt_mul hP] at hhi
    obtain hstop | hidle : n / c.bitPeriod = 11 * j + 10 ∨ n / c.bitPeriod = 11 * (j + 1) := by omega
    · exact tx_of_position_idle hline (j := j) (.inr (by omega))
    · exact tx_of_position_idle hline (j := j + 1) (.inl (by omega))
  case after => exact tx_of_position_idle hline (j := c.length - 1) (.inr (by omega))

/-- Settles O37: byte `j` takes the positions `11j` to `11j + 10`, the last of them SEND_DONE, and the terminal state is
the last position. -/
theorem protocolScheduleFromReset : Obligations.ProtocolScheduleFromReset := by
  intro c ins n hr
  have hL := c.one_le_length
  obtain ⟨t, ht⟩ := run_eq_next_of_inv n (start_inv c ins)
  have hti := run_inv (start_inv c ins) ht
  have hpos := run_start_position hr ht
  have hlen : t.len = c.length := congrArg Circuit.length (run_circuit ht)
  have hP : 0 < c.bitPeriod := Nat.succ_pos _
  refine ⟨t, ht, fun j hj ⟨hlo, hhi⟩ => ?done, fun j hj hlo hhi => ?byte, ?terminal⟩
  case done =>
    rw [← Nat.le_div_iff_mul_le hP] at hlo
    rw [← Nat.div_lt_iff_lt_mul hP] at hhi
    exact ((position_eq_done_iff hti (j := j)).mp (by omega)).1
  case byte =>
    rw [← Nat.le_div_iff_mul_le hP] at hlo
    simp only [← Nat.div_lt_iff_lt_mul hP] at hhi
    obtain ⟨hge, hle⟩ := position_bounds hti
    omega
  case terminal =>
    rw [terminal_iff_position hti, lastPosition, hlen, hpos, ← Nat.le_div_iff_mul_le hP]
    omega

end Sys2Proof.Proofs
end

section
/-! PROOFS. Reset in a run, of 70_reset_and_hazards.md: a held reset keeps the reset state, and after the last reset
edge the engine runs as from power-on. -/

namespace Sys2Proof.Proofs

open Machine

theorem step_inReset {s t : State} (hr : s.rst = true) (h : step s = .next t) : t.InReset := by
  cases (step_eq_of_rst hr).symm.trans h
  exact ⟨rfl, rfl, rfl, rfl, rfl⟩

/-- A run of one or more edges with reset completes from any state and ends in the reset state. -/
theorem run_inReset (n : Nat) {s : State} (hr : s.ResetHeld (n + 1)) :
    ∃ t, run (n + 1) s = .next t ∧ t.InReset := by
  induction n generalizing s with
  | zero =>
    have hstep := step_eq_of_rst (hr 0 (by decide))
    exact ⟨_, run_succ 0 hstep, step_inReset (hr 0 (by decide)) hstep⟩
  | succ n ih =>
    have hstep := step_eq_of_rst (hr 0 (Nat.succ_pos _))
    obtain ⟨t, ht, hreset⟩ := ih fun k hk => by
      rw [(step_surroundings hstep).2]
      exact hr (k + 1) (Nat.succ_lt_succ hk)
    exact ⟨t, (run_succ (n + 1) hstep).trans ht, hreset⟩

/-- Settles O38: every edge of the run is a RESET, and the reset values leave no tick and satisfy `Inv`. -/
theorem resetHeldKeepsResetState : Obligations.ResetHeldKeepsResetState := by
  intro s n hn hr
  obtain ⟨m, rfl⟩ := Nat.exists_eq_add_of_le' hn
  obtain ⟨t, ht, hreset⟩ := run_inReset m hr
  exact ⟨t, ht, run_circuit ht, hreset, tick_eq_false_of_inReset hreset, (lineInv_of_inReset hreset).1⟩

/-- After a reset edge and `n` further edges without reset, the position is the number of whole bit periods since the
reset edge, and the line is that of the position. -/
theorem run_position_after_reset {s : State} {n : Nat} (hr : s.rst = true)
    (hno : ∀ k, 1 ≤ k → k < n + 1 → (s.inputAt k).rst = false) :
    ∃ t, run (n + 1) s = .next t ∧ t.circuit = s.circuit ∧ t.LineInv
      ∧ position t = min (n / s.circuit.bitPeriod) (11 * s.len - 1) := by
  have hstep := step_eq_of_rst hr
  generalize s.commit s.engineReset s.engineReset = u at hstep
  have hline := lineInv_of_inReset (step_inReset hr hstep)
  obtain ⟨hcnt, hidx, hst, hseq, -⟩ := step_inReset hr hstep
  have hcirc := (step_surroundings hstep).1
  have hnoReset : u.NoReset n := fun k hk => by
    rw [(step_surroundings hstep).2]
    exact hno (k + 1) (Nat.succ_pos k) (Nat.succ_lt_succ hk)
  obtain ⟨t, ht⟩ := run_eq_next_of_inv n hline.1
  have hpos := run_position hline.1 hnoReset ht
  simp only [phase, hcnt, Nat.sub_self, Nat.zero_add, position_of_sendWait hst, hseq, hidx, Nat.mul_zero,
    lastPosition, State.len, hcirc] at hpos
  exact ⟨t, (run_succ n hstep).trans ht, (run_circuit ht).trans hcirc, run_keeps step_lineInv hline ht, hpos⟩

/-- Settles O39: for a bit period after the reset edge the position is 0, where the line is at 1; then it is 1, with the
start bit of byte 0 driven. -/
theorem resetCutsFrameAndRestarts : Obligations.ResetCutsFrameAndRestarts := by
  intro s n hr hno
  have hL : 1 ≤ s.len := s.circuit.one_le_length
  have hP : 0 < s.circuit.bitPeriod := Nat.succ_pos _
  refine ⟨fun h1 hn => ?idle, fun hn => ?start⟩
  case idle =>
    obtain ⟨m, rfl⟩ := Nat.exists_eq_add_of_le' h1
    obtain ⟨t, ht, -, hline, hpos⟩ := run_position_after_reset hr hno
    rw [Nat.div_eq_of_lt (by omega)] at hpos
    exact ⟨t, ht, tx_of_position_idle hline (j := 0) (.inl (by omega))⟩
  case start =>
    subst hn
    obtain ⟨t, ht, hcirc, hline, hpos⟩ := run_position_after_reset hr hno
    rw [Nat.div_self hP] at hpos
    have hlen : t.len = s.len := congrArg Circuit.length hcirc
    obtain ⟨htx, hseq, hidx, hst⟩ := start_bit_of_position hline (j := 0) (by omega) (by omega)
    exact ⟨t, ht, htx, hst, hidx, hseq⟩

end Sys2Proof.Proofs
end

section
/-! PROOFS. The companion blocks of 60_exceptions.md section 4: one edge of the Synchronizer and of the HeartbeatBlink
counters, and what an indicator shows of its counter. -/

namespace Sys2Proof.Proofs

open Machine

/-! ### One edge -/

/-- The companion registers after an edge, whatever the engine does at it (R85, R87). -/
theorem step_companions {s t : State} (h : step s = .next t) :
    t.s1 = s.nextS1 ∧ t.s2 = s.nextS2 ∧ t.hbTx = s.nextHbTx ∧ t.hbRx = s.nextHbRx := by
  obtain ⟨-, rfl⟩ | ⟨-, -, hcases⟩ := step_next_cases h
  · simp
  · obtain ⟨-, rfl⟩ | ⟨-, -, -, v, -, rfl⟩ | ⟨-, -, -, rfl⟩ | ⟨-, -, -, -, rfl⟩ | ⟨-, -, -, -, rfl⟩ := hcases
      <;> simp

theorem nextHb_reset (mon : Bool) (ceil hb : Nat) : nextHb true mon ceil hb = 0 := rfl

theorem nextHb_reload (ceil hb : Nat) : nextHb false true ceil hb = ceil := rfl

theorem nextHb_count (ceil hb : Nat) : nextHb false false ceil hb = hb - 1 := by
  cases hb <;> rfl

/-- Settles O23: an edge keeps each counter within its range, and the ceiling is part of the circuit. -/
theorem everyStepKeepsHeartbeatRange : Obligations.EveryStepKeepsHeartbeatRange := by
  rintro s t ⟨htx, hrx⟩ h
  obtain ⟨-, -, hbTx, hbRx⟩ := step_companions h
  rw [State.CompanionsInRange, hbTx, hbRx, (step_surroundings h).1]
  exact ⟨nextHb_le htx _ _, nextHb_le hrx _ _⟩

/-- Settles O42: the two stages' next values, with reset and without. -/
theorem synchronizerShiftsInput : Obligations.SynchronizerShiftsInput := by
  intro s t h
  obtain ⟨hs1, hs2, -, -⟩ := step_companions h
  rw [hs1, hs2]
  exact ⟨fun hr => by simp [State.nextS1, State.nextS2, hr], fun hr => by simp [State.nextS1, State.nextS2, hr]⟩

section counters
variable {s t : State} (h : step s = .next t) (hr : s.rst = false)
include h hr

theorem step_hbTx_reload (hm : s.monTx = true) : t.hbTx = s.circuit.companions.hbCeil := by
  rw [(step_companions h).2.2.1, State.nextHbTx, hr, hm, nextHb_reload]

theorem step_hbTx_count (hm : s.monTx = false) : t.hbTx = s.hbTx - 1 := by
  rw [(step_companions h).2.2.1, State.nextHbTx, hr, hm, nextHb_count]

theorem step_hbRx_reload (hm : s.monRx = true) : t.hbRx = s.circuit.companions.hbCeil := by
  rw [(step_companions h).2.2.2, State.nextHbRx, hr, hm, nextHb_reload]

theorem step_hbRx_count (hm : s.monRx = false) : t.hbRx = s.hbRx - 1 := by
  rw [(step_companions h).2.2.2, State.nextHbRx, hr, hm, nextHb_count]

end counters

/-- Settles O44: the two counters' next values, with reset, at a reload and at a count. -/
theorem heartbeatCountersReloadAndCount : Obligations.HeartbeatCountersReloadAndCount := by
  refine fun s t h => ⟨fun hr => ?_, step_hbTx_reload h, step_hbTx_count h, step_hbRx_reload h, step_hbRx_count h⟩
  obtain ⟨-, -, hbTx, hbRx⟩ := step_companions h
  rw [hbTx, hbRx, State.nextHbTx, State.nextHbRx, hr, nextHb_reset, nextHb_reset]
  exact ⟨rfl, rfl⟩

/-! ### Latency of the Synchronizer (R86) -/

theorem run_one_two {s t u : State} (ht : step s = .next t) (hu : step t = .next u) :
    run 1 s = .next t ∧ run 2 s = .next u :=
  ⟨run_succ 0 ht, (run_succ 1 ht).trans (run_succ 0 hu)⟩

/-- Settles O43: two edges in a row; the second stage takes what the first held, which an edge without reset took from
the input and a reset edge set to SYNC_RESET. -/
theorem synchronizerLatencyIsTwoEdges : Obligations.SynchronizerLatencyIsTwoEdges := by
  refine ⟨fun s hi hr => ?noReset, fun s hr hr' => ?afterReset⟩
  case noReset =>
    obtain ⟨t, ht⟩ := step_eq_next_of_inv hi
    obtain ⟨u, hu⟩ := step_eq_next_of_inv (step_inv hi ht)
    have hrs : s.rst = false := hr 0 (by decide)
    have hrt : t.rst = false := rst_eq_false_of_noReset (noReset_of_step hr ht)
    obtain ⟨hs1, hs2⟩ := (synchronizerShiftsInput s t ht).2 hrs
    obtain ⟨-, hu2⟩ := (synchronizerShiftsInput t u hu).2 hrt
    obtain ⟨hrun1, hrun2⟩ := run_one_two ht hu
    exact ⟨t, u, hrun1, hrun2, hs2, hu2.trans hs1⟩
  case afterReset =>
    have ht := step_eq_of_rst hr
    generalize s.commit s.engineReset s.engineReset = t at ht
    obtain ⟨u, hu⟩ := step_eq_next_of_inv (inv_of_step_of_rst hr ht)
    have hrt : t.rst = false := (congrArg Inputs.rst ((step_surroundings ht).2 0)).trans hr'
    obtain ⟨hs1, hs2⟩ := (synchronizerShiftsInput s t ht).1 hr
    obtain ⟨-, hu2⟩ := (synchronizerShiftsInput t u hu).2 hrt
    obtain ⟨hrun1, hrun2⟩ := run_one_two ht hu
    exact ⟨t, u, hrun1, hrun2, hs2, hu2.trans hs1⟩

/-! ### The indicators (R88) -/

/-- Up to the ceiling the most-significant bit of the counter says that it is in the upper half of its range. -/
theorem led_eq_true_iff {c : Companions} {hb : Nat} (h : hb ≤ c.hbCeil) :
    led c hb = true ↔ 2 ^ (c.hbWidth - 1) ≤ hb := by
  have hceil := c.ceil_le
  have hwidth := c.width_pos
  have hpos : 0 < 2 ^ c.hbWidth := Nat.two_pow_pos _
  constructor
  · exact Nat.ge_two_pow_of_testBit
  · intro hhalf
    refine Nat.testBit_of_two_pow_le_and_two_pow_add_one_gt hhalf ?_
    rw [Nat.sub_add_cancel hwidth]
    omega

/-- Settles O45: each counter is within the range in which its most-significant bit is that comparison. -/
theorem indicatorThresholdIsHalfRange : Obligations.IndicatorThresholdIsHalfRange :=
  fun _ ⟨htx, hrx⟩ => ⟨led_eq_true_iff htx, led_eq_true_iff hrx⟩

/-- A counter `hb` that an edge without reset counts down while `mon` is 0 is `n` less after `n` such edges. -/
theorem run_counter {hb : State → Nat} {mon : State → Bool}
    (count : ∀ {s t}, step s = .next t → s.rst = false → mon s = false → hb t = hb s - 1) {n : Nat} {s t : State}
    (hr : s.NoReset n) (h : run n s = .next t) (hmon : ∀ k u, k < n → run k s = .next u → mon u = false) :
    hb t = hb s - n := by
  induction n generalizing s with
  | zero =>
    cases h
    rfl
  | succ n ih =>
    obtain ⟨u, hu, hrun⟩ := run_succ_next h
    have hcount := count hu (rst_eq_false_of_noReset hr) (hmon 0 s n.succ_pos rfl)
    have hrest := ih (noReset_of_step hr hu) hrun fun k v hk hv =>
      hmon (k + 1) v (Nat.succ_lt_succ hk) ((run_succ k hu).trans hv)
    omega

/-- An indicator over a counter that `mon` reloads: `n` edges after the reload it is lit exactly while the countdown
from the ceiling is in the upper half of the range. -/
theorem led_run_after_reload {hb : State → Nat} {mon : State → Bool}
    (reload : ∀ {s t}, step s = .next t → s.rst = false → mon s = true → hb t = s.circuit.companions.hbCeil)
    (count : ∀ {s t}, step s = .next t → s.rst = false → mon s = false → hb t = hb s - 1)
    {n : Nat} {s t : State} (hr : s.NoReset (n + 1)) (h : run (n + 1) s = .next t) (hm : mon s = true)
    (hmon : ∀ k u, 1 ≤ k → k ≤ n → run k s = .next u → mon u = false) :
    led t.circuit.companions (hb t) = true
      ↔ n < s.circuit.companions.hbCeil + 1 - 2 ^ (s.circuit.companions.hbWidth - 1) := by
  obtain ⟨u, hu, hrun⟩ := run_succ_next h
  have hhalf : 0 < 2 ^ (s.circuit.companions.hbWidth - 1) := Nat.two_pow_pos _
  have hstart := reload hu (rst_eq_false_of_noReset hr) hm
  have hcount : hb t = hb u - n := run_counter count (noReset_of_step hr hu) hrun fun k v hk hv =>
    hmon (k + 1) v k.succ_pos hk ((run_succ k hu).trans hv)
  rw [run_circuit h, hcount, hstart, led_eq_true_iff (Nat.sub_le _ _)]
  omega

/-- Settles O46: both indicators reload and count alike, so `led_run_after_reload` gives how long each stays lit. -/
theorem indicatorStaysLitForDuration : Obligations.IndicatorStaysLitForDuration := by
  intro s n hi hr
  obtain ⟨t, ht⟩ := run_eq_next_of_inv (n + 1) hi
  exact ⟨t, ht, led_run_after_reload (hb := State.hbTx) step_hbTx_reload step_hbTx_count hr ht,
    led_run_after_reload (hb := State.hbRx) step_hbRx_reload step_hbRx_count hr ht⟩

end Sys2Proof.Proofs
end

section
/-! PROOFS. Construction, of 60_exceptions.md section 1 and 00_scope.md section 4: which parameters fail which check,
the circuit of parameters that fail none, and the derived rates. -/

namespace Sys2Proof.Proofs

/-! ### The checks (R77, R78) -/

theorem failsCe1_iff (d : DivisorSource) :
    failsCe1 d = true ↔ (∃ t baud, d = .rates (.periodNs t) baud ∧ t ≤ 0)
      ∨ (∃ f baud, d = .rates (.frequencyHz f) baud ∧ f ≤ 0) := by
  rcases d with ⟨⟨t⟩ | ⟨f⟩, baud⟩ | ⟨n⟩ <;> simp [failsCe1]

theorem failsCe2_iff (d : DivisorSource) :
    failsCe2 d = true ↔ ∃ clock baud, d = .rates clock baud ∧ baud ≤ 0 := by
  rcases d with ⟨clock, baud⟩ | ⟨n⟩ <;> simp [failsCe2]

theorem failsCe3_iff (d : DivisorSource) :
    failsCe3 d = true ↔ (∃ t baud, d = .rates (.periodNs t) baud ∧ t ≠ 0 ∧ 10 ^ 9 / t < baud)
      ∨ (∃ f baud, d = .rates (.frequencyHz f) baud ∧ f < baud) := by
  rcases d with ⟨⟨t⟩ | ⟨f⟩, baud⟩ | ⟨n⟩
  · by_cases ht : t = 0 <;> simp [failsCe3, DrivingClock.frequency, ht]
  · simp [failsCe3, DrivingClock.frequency]
  · simp [failsCe3]

theorem failsCe4_iff (buf : List Int) : failsCe4 buf = true ↔ buf = [] := List.isEmpty_iff

theorem failsCe5_iff (buf : List Int) : failsCe5 buf = true ↔ ∃ b ∈ buf, b < 0 ∨ 255 < b := by
  simp [failsCe5]

theorem failsCe6_iff (d : DivisorSource) : failsCe6 d = true ↔ ∃ n, d = .direct n ∧ n < 1 := by
  rcases d with ⟨clock, baud⟩ | ⟨n⟩ <;> simp [failsCe6]

/-- The check of a code, on the parameters (R77). -/
def checkFails (p : Params) : ConfigCode → Bool
  | .ce1 => failsCe1 p.divisor
  | .ce2 => failsCe2 p.divisor
  | .ce3 => failsCe3 p.divisor
  | .ce4 => failsCe4 p.buf
  | .ce5 => failsCe5 p.buf
  | .ce6 => failsCe6 p.divisor

theorem mem_failingCodes_iff (p : Params) (code : ConfigCode) : code ∈ failingCodes p ↔ checkFails p code = true := by
  cases code <;> simp [failingCodes, checkFails]

theorem ite_singleton_sublist (b : Bool) (code : ConfigCode) : (if b then [code] else []).Sublist [code] := by
  cases b <;> simp

theorem failingCodes_sublist (p : Params) : (failingCodes p).Sublist [.ce1, .ce2, .ce3, .ce4, .ce5, .ce6] :=
  (((((ite_singleton_sublist _ .ce1).append (ite_singleton_sublist _ .ce2)).append
    (ite_singleton_sublist _ .ce3)).append (ite_singleton_sublist _ .ce4)).append
    (ite_singleton_sublist _ .ce5)).append (ite_singleton_sublist _ .ce6)

/-! ### The circuit of parameters that fail no check -/

theorem construct_eq_error {p : Params} (h : failingCodes p ≠ []) : construct p = .error (failingCodes p) :=
  dif_neg h

/-- Everything a construction can do when it answers a circuit. -/
theorem construct_ok_cases {p : Params} {c : Circuit} (h : construct p = .ok c) :
    failingCodes p = [] ∧ c.divisor = divisorOf p.divisor ∧ c.buf = Memory.ofBytes (bytesOf p.buf)
      ∧ c.companions = p.companions := by
  unfold construct at h
  split at h
  · next hcodes =>
    cases h
    exact ⟨hcodes, rfl, rfl, rfl⟩
  · cases h

/-- Settles O47: each check in turn is its condition on the parameters, the codes are appended in order, and
construction tests the list of them for emptiness. -/
theorem constructionChecks : Obligations.ConstructionChecks := by
  intro p
  have mem := mem_failingCodes_iff p
  exact ⟨(mem .ce1).trans (failsCe1_iff _), (mem .ce2).trans (failsCe2_iff _), (mem .ce3).trans (failsCe3_iff _),
    (mem .ce4).trans (failsCe4_iff _), (mem .ce5).trans (failsCe5_iff _), (mem .ce6).trans (failsCe6_iff _),
    failingCodes_sublist p, construct_eq_error, fun h => ⟨_, dif_pos h⟩⟩

/-- A buffer that passes CE5 reads back as the integers given. -/
theorem read_bytesOf {buf : List Int} (h : ¬ failsCe5 buf = true) {i : Nat} {b : Int} (hb : buf[i]? = some b) :
    ∃ v : Byte, (Memory.ofBytes (bytesOf buf)).read i = some v ∧ (v.toNat : Int) = b := by
  have hbyte : 0 ≤ b ∧ b ≤ 255 := by
    by_contra hno
    exact h ((failsCe5_iff buf).mpr ⟨b, List.mem_of_getElem? hb, by omega⟩)
  refine ⟨BitVec.ofNat 8 b.toNat, by simp [Memory.read_ofBytes, bytesOf, hb], ?_⟩
  rw [BitVec.toNat_ofNat]
  omega

/-- The nearest integer is within one half, below it or at it (D5). -/
theorem roundedDivisor_bounds (drv baud : Rat) :
    (roundedDivisor drv baud : Rat) - 1 / 2 ≤ drv / baud ∧ drv / baud < (roundedDivisor drv baud : Rat) + 1 / 2 := by
  have hlo := Rat.floor_le (drv / baud + 1 / 2)
  have hhi := Rat.lt_floor_add_one (drv / baud + 1 / 2)
  push_cast at hhi
  unfold roundedDivisor
  constructor <;> linarith

/-- Settles O48: the parameters pass every check, so the divisor and the bytes are within range and no conversion to a
natural number or a byte loses anything. -/
theorem constructedCircuitIsAsGiven : Obligations.ConstructedCircuitIsAsGiven := by
  intro p c h
  obtain ⟨hcodes, hdiv, hbuf, hcomp⟩ := construct_ok_cases h
  have passes : ∀ code, ¬ code ∈ failingCodes p := by simp [hcodes]
  have hpos := c.divisor_pos
  have hlen : c.length = p.buf.length := by
    simp [Circuit.length, hbuf, Memory.ofBytes, Memory.length_ofBytesFrom, bytesOf]
  refine ⟨hpos, hlen, hcomp, fun i b hb => ?bytes, fun n hn => ?direct, fun clock baud f hrates hf => ?rates⟩
  case bytes =>
    rw [hbuf]
    exact read_bytesOf (fun h5 => passes .ce5 ((mem_failingCodes_iff p .ce5).mpr h5)) hb
  case direct =>
    simp only [hn, divisorOf] at hdiv
    omega
  case rates =>
    simp only [hrates, divisorOf, hf] at hdiv
    have hcast : (c.divisor : Int) = roundedDivisor f baud := by omega
    have hcast' : (c.divisor : Rat) = (roundedDivisor f baud : Rat) := by exact_mod_cast hcast
    rw [hcast']
    exact roundedDivisor_bounds f baud

/-! ### A period is a frequency (D6) -/

/-- A construction depends on the divisor's source through the failing codes and N alone. -/
theorem construct_congr {p q : Params} (hcodes : failingCodes p = failingCodes q)
    (hdiv : divisorOf p.divisor = divisorOf q.divisor) (hbuf : p.buf = q.buf) (hcomp : p.companions = q.companions) :
    construct p = construct q := by
  simp only [construct, hcodes, hdiv, hbuf, hcomp]

theorem frequency_periodNs {t : Rat} (ht : t ≠ 0) :
    DrivingClock.frequency (.periodNs t) = DrivingClock.frequency (.frequencyHz (10 ^ 9 / t)) := by
  simp [DrivingClock.frequency, ht]

theorem failsCe1_periodNs (t baud : Rat) :
    failsCe1 (.rates (.periodNs t) baud) = failsCe1 (.rates (.frequencyHz (10 ^ 9 / t)) baud) := by
  have hsign : t ≤ 0 ↔ 10 ^ 9 / t ≤ 0 := by
    rw [← not_lt, ← not_lt, div_pos_iff_of_pos_left (by norm_num)]
  simp [failsCe1, hsign]

theorem failsCe3_periodNs {t : Rat} (ht : t ≠ 0) (baud : Rat) :
    failsCe3 (.rates (.periodNs t) baud) = failsCe3 (.rates (.frequencyHz (10 ^ 9 / t)) baud) := by
  simp only [failsCe3, frequency_periodNs ht]

/-- Settles O49: CE1 asks for the sign, which the quotient shares with the period, and the other checks and N read the
frequency alone. -/
theorem periodIsUsedExactly : Obligations.PeriodIsUsedExactly := by
  intro t baud buf k ht
  refine construct_congr ?_ ?_ rfl rfl
  · unfold failingCodes
    rw [failsCe1_periodNs, failsCe3_periodNs ht]
    rfl
  · simp only [divisorOf, frequency_periodNs ht]

/-! ### Rates (R74, R75) -/

/-- Settles O50: the bit period is N + 1, which is not 0, so each product cancels. -/
theorem actualRates : Obligations.ActualRates := by
  intro c drv baud hb
  have hP : (c.bitPeriod : Rat) = (c.divisor : Rat) + 1 := by simp [Circuit.bitPeriod]
  have hne : (c.divisor : Rat) + 1 ≠ 0 := by positivity
  refine ⟨rfl, ?_, ?_, ?_, ?_, ?_, ?_⟩ <;> simp only [actualBitRate, actualByteRate, bitRateRatio, hP] <;> field_simp

end Sys2Proof.Proofs
end
